-- ==== Sys2Proof/Word.lean ====
section
/-! DEFINITION. The word width of an instance and the types of its values (00_scope.md R5, R9, R11).
CBC-CORE is built for one width out of four; every definition of the model takes the width as an
argument, so what is proved holds of all four. -/

namespace Sys2Proof

/-- `W_BYTES` in {1, 2, 4, 8} (R5): the width of one instance, fixed when the instance is built. -/
inductive Width where
  | w8
  | w16
  | w32
  | w64
deriving DecidableEq, Repr

/-- `W_BYTES`, the word width in bytes (R5). -/
def Width.bytes : Width → Nat
  | .w8 => 1
  | .w16 => 2
  | .w32 => 4
  | .w64 => 8

/-- `w = 8 * W_BYTES`, the word width in bits (R5). -/
def Width.bits (W : Width) : Nat := 8 * W.bytes

/-- `DW = max(32, w)`, the width in bits of a value carried by one host access (R9). -/
def Width.dw (W : Width) : Nat := max 32 W.bits

/-- The width with a given `W_BYTES`; every other value is refused (R5, 93_implementation_defined.md U5). -/
def Width.ofBytes : Nat → Option Width
  | 1 => some .w8
  | 2 => some .w16
  | 4 => some .w32
  | 8 => some .w64
  | _ => none

/-- A Word: an unsigned integer in [0, 2^w - 1] (R11, R100). -/
abbrev Word (W : Width) := BitVec W.bits

/-- A Byte: an unsigned integer in [0, 255] (R11). -/
abbrev Byte := BitVec 8

/-- A DW-bit value on the host port (R9, R13). -/
abbrev Bus (W : Width) := BitVec W.dw

end Sys2Proof
end

