-- ==== Sys2Proof/Config.lean ====
section
/-! DEFINITION. The implementation parameters (00_scope.md R5 to R8) and the one instance that
`State.reset` stands for. `KMAX`, `RMAX`, `TMAX`, `CMAX` are fixed by the spec. `W_BYTES`, `PW`, `QW`
are arguments of the model: they are fields of State, so a statement over every state holds for every
choice of them, and the values below serve only `State.reset` and tests. -/

namespace Sys2Proof.Config

/-- `KMAX = 255`, the largest key length in bytes (R7). -/
def kmax : Nat := 255

/-- `RMAX = 255`, the largest round count (R7). -/
def rmax : Nat := 255

/-- `TMAX = 2 * RMAX + 1 = 511` subkey words (R8). -/
def tmax : Nat := 2 * rmax + 1

/-- `c = max(1, ceil(8b / w))`, the number of key words of a key of `b` bytes (R143). -/
def keyWords (W : Width) (b : Nat) : Nat := max 1 ((8 * b + W.bits - 1) / W.bits)

/-- `CMAX = max(1, ceil(8 * KMAX / w))` key words (R8). -/
def cmax (W : Width) : Nat := keyWords W kmax

/-- The recommended `PW` of each width (R6, 93_implementation_defined.md G1; general knowledge there).
PRESUMED, log entry 2: unsafe where a statement rests on the number, and none does. -/
def recommendedPW : (W : Width) → Word W
  | .w8 => 0xB7#8
  | .w16 => 0xB7E1#16
  | .w32 => 0xB7E15163#32
  | .w64 => 0xB7E151628AED2A6B#64

/-- The recommended `QW` of each width (R6, 93_implementation_defined.md G1; general knowledge there).
PRESUMED, log entry 2: unsafe where a statement rests on the number, and none does. -/
def recommendedQW : (W : Width) → Word W
  | .w8 => 0x9F#8
  | .w16 => 0x9E37#16
  | .w32 => 0x9E3779B9#32
  | .w64 => 0x9E3779B97F4A7C15#64

/-- The width of the instance that `State.reset` stands for. R5 leaves it a parameter.
DESIGN CHOICE, log entry 1: the 8-bit instance, which the source's own concrete vector uses
(95_test_vectors.md E5); unsafe where a statement rests on it, and none does. -/
def resetWidth : Width := .w8

end Sys2Proof.Config
end

