-- ==== Sys2Proof/Syntax.lean ====
section
/-! DEFINITION. The eighteen commands of 30_encoding.md R76, one constructor each, and their operands
(R72, R73). -/

namespace Sys2Proof

/-- The index of a word register, `X0` to `X3` (10_state.md R20; the fields rd, rs1, rs2 of R72). -/
inductive Reg where
  | x0
  | x1
  | x2
  | x3
deriving DecidableEq, Repr

/-- The commands (R76). A register operand is a `Reg`. An immediate is the integer the assembler line
gives (R73, R86): its range is checked by `Instr.wellFormed`. -/
inductive Instr where
  /-- KEYEXP: expand the key into the schedule (42_key_schedule.md R140). -/
  | keyexp
  /-- ENC: encrypt the block (43_cipher.md R162). -/
  | enc
  /-- DEC: decrypt the block (43_cipher.md R166). -/
  | dec
  /-- ADD Xd, Xa, Xb (40_word_alu.md R112). -/
  | add (rd rs1 rs2 : Reg)
  /-- SUB Xd, Xa, Xb (R113). -/
  | sub (rd rs1 rs2 : Reg)
  /-- XOR Xd, Xa, Xb (R114). -/
  | xor (rd rs1 rs2 : Reg)
  /-- OR Xd, Xa, Xb (R115). -/
  | or (rd rs1 rs2 : Reg)
  /-- AND Xd, Xa, Xb (R116). -/
  | and (rd rs1 rs2 : Reg)
  /-- SHL Xd, Xa, Xb (R117); rs2 holds the amount. -/
  | shl (rd rs1 rs2 : Reg)
  /-- SHR Xd, Xa, Xb (R118); rs2 holds the amount. -/
  | shr (rd rs1 rs2 : Reg)
  /-- ROTL Xd, Xa, Xb (41_rotator.md R133); rs2 holds the amount. -/
  | rotl (rd rs1 rs2 : Reg)
  /-- ROTR Xd, Xa, Xb (R134); rs2 holds the amount. -/
  | rotr (rd rs1 rs2 : Reg)
  /-- LDI Xd, n (40_word_alu.md R121); n is imm16. -/
  | ldi (rd : Reg) (imm16 : Nat)
  /-- LDB Xd, n (R122); n is imm8. -/
  | ldb (rd : Reg) (imm8 : Nat)
  /-- SHLI Xd, Xa, n (R119); n is imm16, the amount. -/
  | shli (rd rs1 : Reg) (imm16 : Nat)
  /-- SHRI Xd, Xa, n (R120); n is imm16, the amount. -/
  | shri (rd rs1 : Reg) (imm16 : Nat)
  /-- ROTLI Xd, Xa, n (41_rotator.md R135); n is imm16, the amount. -/
  | rotli (rd rs1 : Reg) (imm16 : Nat)
  /-- ROTRI Xd, Xa, n (R136); n is imm16, the amount. -/
  | rotri (rd rs1 : Reg) (imm16 : Nat)
deriving DecidableEq, Repr

end Sys2Proof
end

