-- ==== Sys2Proof/WellFormed.lean ====
section
/-! DEFINITION. The operand ranges of 30_encoding.md R86: an assembler refuses an operand that is out of
range instead of truncating it. A register operand is in range by its type. -/

namespace Sys2Proof

/-- An imm16 operand is an integer 0 to 65535 (R73, R86). -/
def fitsImm16 (n : Nat) : Bool := n < 2 ^ 16

/-- An imm8 operand is an integer 0 to 255 (R73, R86). -/
def fitsImm8 (n : Nat) : Bool := n < 2 ^ 8

/-- A command whose operands its encoding can hold (R86). -/
def Instr.wellFormed : Instr → Bool
  | .keyexp => true
  | .enc => true
  | .dec => true
  | .add _ _ _ => true
  | .sub _ _ _ => true
  | .xor _ _ _ => true
  | .or _ _ _ => true
  | .and _ _ _ => true
  | .shl _ _ _ => true
  | .shr _ _ _ => true
  | .rotl _ _ _ => true
  | .rotr _ _ _ => true
  | .ldi _ n => fitsImm16 n
  | .ldb _ n => fitsImm8 n
  | .shli _ _ n => fitsImm16 n
  | .shri _ _ n => fitsImm16 n
  | .rotli _ _ n => fitsImm16 n
  | .rotri _ _ n => fitsImm16 n

end Sys2Proof
end

