-- ==== Sys2Proof/Decode.lean ====
section
/-! DEFINITION. Command words: the fields of 30_encoding.md R71 and R72, the decoder of R70 and R75, the
encoder written from the same four formats, and the match and mask table of R76. -/

namespace Sys2Proof

/-! ## Fields (R71, R72) -/

/-- The two bits that name a register (R72). -/
def Reg.bits : Reg → BitVec 2
  | .x0 => 0#2
  | .x1 => 1#2
  | .x2 => 2#2
  | .x3 => 3#2

/-- The register two bits name; all four values are registers (R72). -/
def Reg.ofBits (b : BitVec 2) : Reg :=
  match b.toNat with
  | 0 => .x0
  | 1 => .x1
  | 2 => .x2
  | _ => .x3

/-- `op = cw[31:24]` (R72). -/
def opField (cw : BitVec 32) : BitVec 8 := cw.extractLsb' 24 8
/-- `rd = cw[23:22]` (R72). -/
def rdField (cw : BitVec 32) : Reg := Reg.ofBits (cw.extractLsb' 22 2)
/-- `rs1 = cw[21:20]` (R72). -/
def rs1Field (cw : BitVec 32) : Reg := Reg.ofBits (cw.extractLsb' 20 2)
/-- `rs2 = cw[19:18]` (R72). -/
def rs2Field (cw : BitVec 32) : Reg := Reg.ofBits (cw.extractLsb' 18 2)
/-- `imm16 = cw[15:0]` (R72). -/
def imm16Field (cw : BitVec 32) : Nat := (cw.extractLsb' 0 16).toNat
/-- `imm8 = cw[7:0]` (R72). -/
def imm8Field (cw : BitVec 32) : Nat := (cw.extractLsb' 0 8).toNat

/-! ## Decoding (R70, R75) -/

/-- Why a word is no command (R75). Both reasons raise the same fault, `IllegalCommand`. -/
inductive Illegal where
  /-- The opcode byte is none of R76. -/
  | unlistedOpcode
  /-- The opcode byte is listed and a must-be-0 field is not 0. -/
  | nonzeroReserved
deriving DecidableEq, Repr

/-- The command, if the must-be-0 field is 0 (R72). -/
def ifReservedZero {n : Nat} (reserved : BitVec n) (i : Instr) : Except Illegal Instr :=
  if reserved = 0#n then .ok i else .error .nonzeroReserved

/-- Format E: 23:0 must be 0 (R71). -/
def decodeE (cw : BitVec 32) (i : Instr) : Except Illegal Instr :=
  ifReservedZero (cw.extractLsb' 0 24) i

/-- Format R: rd, rs1, rs2, and 17:0 must be 0 (R71). -/
def decodeR (cw : BitVec 32) (f : Reg → Reg → Reg → Instr) : Except Illegal Instr :=
  ifReservedZero (cw.extractLsb' 0 18) (f (rdField cw) (rs1Field cw) (rs2Field cw))

/-- Format I: rd, rs1, imm16, and 19:16 must be 0 (R71). -/
def decodeI (cw : BitVec 32) (f : Reg → Reg → Nat → Instr) : Except Illegal Instr :=
  ifReservedZero (cw.extractLsb' 16 4) (f (rdField cw) (rs1Field cw) (imm16Field cw))

/-- Format L with imm16 (LDI): rd, and 21:16 must be 0 (R71). -/
def decodeL16 (cw : BitVec 32) (f : Reg → Nat → Instr) : Except Illegal Instr :=
  ifReservedZero (cw.extractLsb' 16 6) (f (rdField cw) (imm16Field cw))

/-- Format L with imm8 (LDB): rd, and 21:8 must be 0 (R71). -/
def decodeL8 (cw : BitVec 32) (f : Reg → Nat → Instr) : Except Illegal Instr :=
  ifReservedZero (cw.extractLsb' 8 14) (f (rdField cw) (imm8Field cw))

/-- The decoder (R70): total on every 32-bit word; the opcode byte selects the command (R76) and every
other opcode byte is illegal (R75). -/
def decode (cw : BitVec 32) : Except Illegal Instr :=
  match (opField cw).toNat with
  | 0x01 => decodeE cw .keyexp
  | 0x02 => decodeE cw .enc
  | 0x03 => decodeE cw .dec
  | 0x10 => decodeR cw .add
  | 0x11 => decodeR cw .sub
  | 0x12 => decodeR cw .xor
  | 0x13 => decodeR cw .or
  | 0x14 => decodeR cw .and
  | 0x15 => decodeR cw .shl
  | 0x16 => decodeR cw .shr
  | 0x17 => decodeR cw .rotl
  | 0x18 => decodeR cw .rotr
  | 0x20 => decodeL16 cw .ldi
  | 0x21 => decodeL8 cw .ldb
  | 0x25 => decodeI cw .shli
  | 0x26 => decodeI cw .shri
  | 0x27 => decodeI cw .rotli
  | 0x28 => decodeI cw .rotri
  | _ => .error .unlistedOpcode

/-- The instruction the decoder reads from a word whose bits are numbered as spec/opcode_table.json
numbers them. Every command is one 32-bit word (R71, R78): bits above `nbits` are 0, and a value that
does not fit 32 bits is no command word. -/
def decodeTableWord (nbits w : Nat) : Option Instr :=
  if w % 2 ^ nbits < 2 ^ 32 then (decode (BitVec.ofNat 32 (w % 2 ^ nbits))).toOption else none

/-! ## Encoding (R71, R76) -/

/-- Format E (R71). -/
def encodeE (op : BitVec 8) : BitVec 32 := op ++ 0#24

/-- Format R (R71). -/
def encodeR (op : BitVec 8) (rd rs1 rs2 : Reg) : BitVec 32 :=
  op ++ rd.bits ++ rs1.bits ++ rs2.bits ++ 0#18

/-- Format I (R71). -/
def encodeI (op : BitVec 8) (rd rs1 : Reg) (imm16 : Nat) : BitVec 32 :=
  op ++ rd.bits ++ rs1.bits ++ 0#4 ++ BitVec.ofNat 16 imm16

/-- Format L with imm16 (R71). -/
def encodeL16 (op : BitVec 8) (rd : Reg) (imm16 : Nat) : BitVec 32 :=
  op ++ rd.bits ++ 0#6 ++ BitVec.ofNat 16 imm16

/-- Format L with imm8 (R71). -/
def encodeL8 (op : BitVec 8) (rd : Reg) (imm8 : Nat) : BitVec 32 :=
  op ++ rd.bits ++ 0#14 ++ BitVec.ofNat 8 imm8

/-- The command word of a well-formed command (R71, R76). An operand out of range is not truncated by the
assembler: `assemble` refuses it. -/
def encode : Instr → BitVec 32
  | .keyexp => encodeE 0x01#8
  | .enc => encodeE 0x02#8
  | .dec => encodeE 0x03#8
  | .add rd rs1 rs2 => encodeR 0x10#8 rd rs1 rs2
  | .sub rd rs1 rs2 => encodeR 0x11#8 rd rs1 rs2
  | .xor rd rs1 rs2 => encodeR 0x12#8 rd rs1 rs2
  | .or rd rs1 rs2 => encodeR 0x13#8 rd rs1 rs2
  | .and rd rs1 rs2 => encodeR 0x14#8 rd rs1 rs2
  | .shl rd rs1 rs2 => encodeR 0x15#8 rd rs1 rs2
  | .shr rd rs1 rs2 => encodeR 0x16#8 rd rs1 rs2
  | .rotl rd rs1 rs2 => encodeR 0x17#8 rd rs1 rs2
  | .rotr rd rs1 rs2 => encodeR 0x18#8 rd rs1 rs2
  | .ldi rd n => encodeL16 0x20#8 rd n
  | .ldb rd n => encodeL8 0x21#8 rd n
  | .shli rd rs1 n => encodeI 0x25#8 rd rs1 n
  | .shri rd rs1 n => encodeI 0x26#8 rd rs1 n
  | .rotli rd rs1 n => encodeI 0x27#8 rd rs1 n
  | .rotri rd rs1 n => encodeI 0x28#8 rd rs1 n

/-- The assembler's word for a command line: an operand out of range is refused (R86). -/
def assemble (i : Instr) : Option (BitVec 32) := if i.wellFormed then some (encode i) else none

/-! ## The table (R76) -/

/-- One row of R76: a word `cw` is the command when `(cw and mask) = matchBits`. -/
structure Row where
  mnemonic : String
  matchBits : BitVec 32
  mask : BitVec 32
deriving DecidableEq, Repr

/-- The complete command list (R76). -/
def opcodeTable : List Row :=
  [ ⟨"KEYEXP", 0x01000000#32, 0xFFFFFFFF#32⟩,
    ⟨"ENC", 0x02000000#32, 0xFFFFFFFF#32⟩,
    ⟨"DEC", 0x03000000#32, 0xFFFFFFFF#32⟩,
    ⟨"ADD", 0x10000000#32, 0xFF03FFFF#32⟩,
    ⟨"SUB", 0x11000000#32, 0xFF03FFFF#32⟩,
    ⟨"XOR", 0x12000000#32, 0xFF03FFFF#32⟩,
    ⟨"OR", 0x13000000#32, 0xFF03FFFF#32⟩,
    ⟨"AND", 0x14000000#32, 0xFF03FFFF#32⟩,
    ⟨"SHL", 0x15000000#32, 0xFF03FFFF#32⟩,
    ⟨"SHR", 0x16000000#32, 0xFF03FFFF#32⟩,
    ⟨"ROTL", 0x17000000#32, 0xFF03FFFF#32⟩,
    ⟨"ROTR", 0x18000000#32, 0xFF03FFFF#32⟩,
    ⟨"LDI", 0x20000000#32, 0xFF3F0000#32⟩,
    ⟨"LDB", 0x21000000#32, 0xFF3FFF00#32⟩,
    ⟨"SHLI", 0x25000000#32, 0xFF0F0000#32⟩,
    ⟨"SHRI", 0x26000000#32, 0xFF0F0000#32⟩,
    ⟨"ROTLI", 0x27000000#32, 0xFF0F0000#32⟩,
    ⟨"ROTRI", 0x28000000#32, 0xFF0F0000#32⟩ ]

/-- The mnemonic of a command (R76). -/
def Instr.mnemonic : Instr → String
  | .keyexp => "KEYEXP"
  | .enc => "ENC"
  | .dec => "DEC"
  | .add _ _ _ => "ADD"
  | .sub _ _ _ => "SUB"
  | .xor _ _ _ => "XOR"
  | .or _ _ _ => "OR"
  | .and _ _ _ => "AND"
  | .shl _ _ _ => "SHL"
  | .shr _ _ _ => "SHR"
  | .rotl _ _ _ => "ROTL"
  | .rotr _ _ _ => "ROTR"
  | .ldi _ _ => "LDI"
  | .ldb _ _ => "LDB"
  | .shli _ _ _ => "SHLI"
  | .shri _ _ _ => "SHRI"
  | .rotli _ _ _ => "ROTLI"
  | .rotri _ _ _ => "ROTRI"

end Sys2Proof
end

