-- ==== Sys2Proof/Machine/State.lean ====
section
/-! DEFINITION. The state of the machine as plain data (10_state.md R20 to R41), the host operations that
are its input (00_scope.md R10, R13), and the state after reset (10_state.md R41, 70_reset_and_hazards.md
R200). Every type that depends on the word width takes the width as its argument. -/

namespace Sys2Proof.Machine

/-- The key byte memory and the subkey memory are sparse lists of (index, value) pairs in one canonical
form: indices strictly rising (DESIGN CHOICE, log entry 9; safe). An unlisted index holds no value, `none`
(10_state.md R36). -/
abbrev Memory (α : Type) := List (Nat × α)

/-- Everything one instance stores (10_state.md R20 to R34). -/
structure Engine (W : Width) where
  /-- `X[0]`, the block's word A (R20, R21). -/
  x0 : Word W
  /-- `X[1]`, the block's word B (R20, R21). -/
  x1 : Word W
  /-- `X[2]`, scratch (R20, R21). -/
  x2 : Word W
  /-- `X[3]`, scratch (R20, R21). -/
  x3 : Word W
  /-- `ROUNDS`, the round count r (R29). -/
  rounds : BitVec 8
  /-- `KLEN`, the key length b in bytes (R30). -/
  klen : BitVec 8
  /-- `SLEN`, the number of subkey words of the current schedule (R32). -/
  slen : BitVec 9
  /-- `K[0 .. 254]`, the key byte memory (R33, R36). -/
  key : List Host.Cell
  /-- `S[0 .. 510]`, the subkey memory (R34, R36). -/
  sub : Memory (Word W)
  /-- `STATUS.FAULT` (R26): the engine is halted (60_exceptions.md R191). -/
  fault : Bool
  /-- `STATUS.CAUSE` (R26). -/
  cause : BitVec 4
  /-- `FINFO` (R27). -/
  finfo : Bus W
  /-- `PW`, the instance's first constant (R31). -/
  pw : Word W
  /-- `QW`, the instance's second constant (R31). -/
  qw : Word W
deriving DecidableEq, Repr

/-- One host operation (00_scope.md R10, R13; 30_encoding.md R86). An address is one of the 1024 of the
host register space (20_memory.md R50); a written value is a DW-bit value (R13). -/
inductive HostOp (W : Width) where
  /-- `rd`: a host read of the register at an address (20_memory.md R52). -/
  | read (addr : BitVec 10)
  /-- `wr`: a host write of a value to the register at an address (20_memory.md R53). -/
  | write (addr : BitVec 10) (value : Bus W)
  /-- `reset` (70_reset_and_hazards.md R200). -/
  | reset
deriving DecidableEq, Repr

/-- The machine: one instance of CBC-CORE and its host port. `pending` and `returned` are the model's own
fields (DESIGN CHOICE, log entry 3; safe: every list is allowed). -/
structure State where
  /-- `W_BYTES` of this instance (R5). -/
  width : Width
  /-- What the instance stores. -/
  engine : Engine width
  /-- The host operations still to come, in the host's issue order (R60). -/
  pending : List (HostOp width)
  /-- The values host reads have returned, oldest first (R52). -/
  returned : List (Bus width)
deriving DecidableEq, Repr

/-- Why the machine would stop. No step of CBC-CORE stops: a fault of the spec is recorded in STATUS and
FINFO and the machine goes on to its next state (60_exceptions.md R190, R191), so there is no constructor.
DEDUCED, log entry 5; safe. -/
inductive Fault where
deriving DecidableEq, Repr

/-- Why the model would give an instruction no meaning. -/
inductive Refusal where
  /-- Raised by an arm of `exec` that has no meaning yet; safe. No arm is one. -/
  | notModelled (mnemonic : String)
deriving DecidableEq, Repr

/-- The three outcomes of a step of this machine. -/
abbrev Outcome := Host.Outcome State Fault Refusal

/-- The engine after reset, for the instance with constants `pw` and `qw` (10_state.md R41,
70_reset_and_hazards.md R200): every register 0, every entry of `K` and `S` holding no value. -/
def Engine.reset {W : Width} (pw qw : Word W) : Engine W where
  x0 := 0
  x1 := 0
  x2 := 0
  x3 := 0
  rounds := 0
  klen := 0
  slen := 0
  key := []
  sub := []
  fault := false
  cause := 0
  finfo := 0
  pw := pw
  qw := qw

/-- The instance of width `W` with constants `pw`, `qw`, right after reset, with no host operation to
come (R41, R200). -/
def State.resetOf (W : Width) (pw qw : Word W) : State where
  width := W
  engine := Engine.reset pw qw
  pending := []
  returned := []

/-- The machine right after reset, for the one instance `Config` names (log entries 1 and 2). Statements
about reset are made of `State.resetOf`, for every instance. -/
def State.reset : State :=
  State.resetOf Config.resetWidth (Config.recommendedPW Config.resetWidth)
    (Config.recommendedQW Config.resetWidth)

end Sys2Proof.Machine
end

