-- ==== Sys2Proof/Machine/Ops.lean ====
section
/-! DEFINITION. The named operations over memory and registers, taking a fault (60_exceptions.md R190) and
the way out of one (R192: reset). -/

namespace Sys2Proof.Machine

/-! ## The sparse memories `K` and `S` (10_state.md R33, R34, R36) -/

/-- The entry at an index; an unlisted index holds no value (R36). -/
def Memory.read {α : Type} : Memory α → Nat → Option α
  | [], _ => none
  | (a, v) :: rest, k => if a = k then some v else Memory.read rest k

/-- Write one entry, keeping the indices strictly rising. -/
def Memory.write {α : Type} : Memory α → Nat → α → Memory α
  | [], k, v => [(k, v)]
  | (a, u) :: rest, k, v =>
    if k < a then (k, v) :: (a, u) :: rest
    else if k = a then (k, v) :: rest
    else (a, u) :: Memory.write rest k v

/-- Write the values of a list to consecutive entries from index `k` on. -/
def Memory.writeFrom {α : Type} : Memory α → Nat → List α → Memory α
  | m, _, [] => m
  | m, k, v :: vs => Memory.writeFrom (Memory.write m k v) (k + 1) vs

/-- Entries `0 .. n-1`, or the lowest of those indices that holds no value (42_key_schedule.md R141,
43_cipher.md R161, 60_exceptions.md R189). -/
def Memory.gather {α : Type} (m : Memory α) : (n : Nat) → Except Nat (Vector α n)
  | 0 => .ok #v[]
  | n + 1 =>
    match Memory.gather m n with
    | .error k => .error k
    | .ok vs =>
      match Memory.read m n with
      | none => .error n
      | some v => .ok (vs.push v)

/-- Every index of the list is above `lo`. -/
def Memory.above {α : Type} (lo : Nat) (m : Memory α) : Bool := m.all (fun c => lo < c.1)

/-- The canonical form: indices strictly rising. An unlisted index holds no value, so no listed value can
equal what an unlisted index reads as. -/
def Memory.rising {α : Type} : Memory α → Bool
  | [] => true
  | (a, _) :: rest => Memory.above a rest && Memory.rising rest

/-- The canonical form of a memory of `size` entries: indices strictly rising and below `size`. -/
def Memory.wf {α : Type} (size : Nat) (m : Memory α) : Bool :=
  Memory.rising m && m.all (fun c => c.1 < size)

/-! ## Registers (10_state.md R20) -/

/-- `X[i]` (R12). -/
def Engine.getX {W : Width} (e : Engine W) : Reg → Word W
  | .x0 => e.x0
  | .x1 => e.x1
  | .x2 => e.x2
  | .x3 => e.x3

/-- `X[i] <- v` (R12). No register is hardwired (R20). -/
def Engine.setX {W : Width} (e : Engine W) (r : Reg) (v : Word W) : Engine W :=
  match r with
  | .x0 => { e with x0 := v }
  | .x1 => { e with x1 := v }
  | .x2 => { e with x2 := v }
  | .x3 => { e with x3 := v }

/-! ## Faults (60_exceptions.md) -/

/-- The seven causes (R181). -/
inductive Cause where
  | illegalCommand
  | badAddress
  | accessType
  | badValue
  | roundsZero
  | schedMismatch
  | uninitRead
deriving DecidableEq, Repr

/-- The code of a cause in `STATUS.CAUSE` (R181). -/
def Cause.code : Cause → BitVec 4
  | .illegalCommand => 1#4
  | .badAddress => 2#4
  | .accessType => 3#4
  | .badValue => 4#4
  | .roundsZero => 5#4
  | .schedMismatch => 6#4
  | .uninitRead => 7#4

/-- Fault entry, `raise F(info)` (R190): FAULT, CAUSE and FINFO are written and nothing else changes. While a
fault is recorded nothing more is recorded (R191: the first fault is kept). -/
def Engine.raise {W : Width} (e : Engine W) (c : Cause) (info : BitVec 32) : Engine W :=
  if e.fault then e
  else { e with fault := true, cause := c.code, finfo := info.setWidth W.dw }

/-- Reset (70_reset_and_hazards.md R200), the only way out of the halted state (R192): the constants of the
instance stay, everything else goes to its reset value. -/
def Engine.doReset {W : Width} (e : Engine W) : Engine W := Engine.reset e.pw e.qw

/-! ## From the engine to the machine -/

/-- The machine with another engine state of the same instance; the host port is untouched. -/
def State.withEngine (s : State) (e : Engine s.width) : State := { s with engine := e }

end Sys2Proof.Machine
end

