-- ==== Sys2Proof/Machine/WordFns.lean ====
section
/-! DEFINITION. The word functions of 40_word_alu.md R100 to R110 and the rotations of 41_rotator.md R130,
R131, R137. They are total, unsigned and of any width; every shift and rotation reduces its amount modulo
the width first (R100, R106, R107; 90_conflicts.md C5). -/

namespace Sys2Proof.Machine

/-- `add(x, y) = (x + y) mod 2^w` (R101). -/
def wordAdd {w : Nat} (x y : BitVec w) : BitVec w := x + y

/-- `sub(x, y) = (x - y) mod 2^w` (R102). -/
def wordSub {w : Nat} (x y : BitVec w) : BitVec w := x - y

/-- `xor(x, y)`, bit by bit (R103). -/
def wordXor {w : Nat} (x y : BitVec w) : BitVec w := x ^^^ y

/-- `or(x, y)`, bit by bit (R104). -/
def wordOr {w : Nat} (x y : BitVec w) : BitVec w := x ||| y

/-- `and(x, y)`, bit by bit (R105). -/
def wordAnd {w : Nat} (x y : BitVec w) : BitVec w := x &&& y

/-- `shl(x, n)`: the amount is reduced modulo w, zeros enter at the bottom (R106). -/
def shl {w : Nat} (x : BitVec w) (n : Nat) : BitVec w := x <<< (n % w)

/-- `shr(x, n)`: the amount is reduced modulo w, zeros enter at the top (R107: logical). -/
def shr {w : Nat} (x : BitVec w) (n : Nat) : BitVec w := x >>> (n % w)

/-- `from_byte(v)`: the Byte zero-extended (R108). -/
def fromByte {w : Nat} (v : Byte) : BitVec w := v.setWidth w

/-- `from_uint(v) = v mod 2^w` (R109). -/
def fromUint {w : Nat} (v : Nat) : BitVec w := BitVec.ofNat w v

/-- `rotl(x, n)` (R130) by the shifts of R137, with the zero effective amount as a case of its own
(R137, 70_reset_and_hazards.md R213 (a)). -/
def rotl {w : Nat} (x : BitVec w) (n : Nat) : BitVec w :=
  if n % w = 0 then x else wordOr (shl x (n % w)) (shr x (w - n % w))

/-- `rotr(x, n)` (R131) by the shifts of R137, with the zero effective amount as a case of its own. -/
def rotr {w : Nat} (x : BitVec w) (n : Nat) : BitVec w :=
  if n % w = 0 then x else wordOr (shr x (n % w)) (shl x (w - n % w))

end Sys2Proof.Machine
end

