-- ==== Sys2Proof/Machine/Operands.lean ====
section
/-! DEFINITION. The operand forms of the word and rotate commands (30_encoding.md R71 to R73) and the one
shape all of them share: read the sources, then write X[rd] and nothing else (40_word_alu.md R111). -/

namespace Sys2Proof.Machine

/-- A Word used as an amount is its unsigned value (41_rotator.md R130, R138; D22). -/
def wordAmount {w : Nat} (y : BitVec w) : Nat := y.toNat

/-- An imm16 used as an amount is the integer itself (R73 (a)). -/
def immAmount (imm16 : Nat) : Nat := imm16

/-- The imm8 of LDB as a Byte (R73 (c)). -/
def immByte (imm8 : Nat) : Byte := BitVec.ofNat 8 imm8

/-- Format R: `X[rd] <- f(X[rs1], X[rs2])` (R71, R111). -/
def State.commandR (s : State) (rd rs1 rs2 : Reg) (f : Word s.width → Word s.width → Word s.width) :
    Outcome :=
  .next (s.withEngine (s.engine.setX rd (f (s.engine.getX rs1) (s.engine.getX rs2))))

/-- Format R with rs2 as the amount: `X[rd] <- f(X[rs1], amount X[rs2])` (R72, R111). -/
def State.commandRAmount (s : State) (rd rs1 rs2 : Reg) (f : Word s.width → Nat → Word s.width) :
    Outcome :=
  .next (s.withEngine (s.engine.setX rd (f (s.engine.getX rs1) (wordAmount (s.engine.getX rs2)))))

/-- Format I: `X[rd] <- f(X[rs1], imm16)` (R71, R73, R111). -/
def State.commandI (s : State) (rd rs1 : Reg) (imm16 : Nat) (f : Word s.width → Nat → Word s.width) :
    Outcome :=
  .next (s.withEngine (s.engine.setX rd (f (s.engine.getX rs1) (immAmount imm16))))

/-- Format L: `X[rd] <- v` (R71, R73, R111). -/
def State.commandL (s : State) (rd : Reg) (v : Word s.width) : Outcome :=
  .next (s.withEngine (s.engine.setX rd v))

end Sys2Proof.Machine
end

