-- ==== Sys2Proof/Machine/KeySchedule.lean ====
section
/-! DEFINITION. The key schedule unit (42_key_schedule.md): KEYEXP. The sequencer's buffers are vectors of
the sizes t and c, and its indices are below those sizes by their types, so no access can fall outside its
buffer (20_memory.md R59) and no entry needs a made-up value. -/

namespace Sys2Proof.Machine

/-! ## Sizes and the bound of the packing index -/

/-- The target word of a key byte exists: `k div u < c` for `k < b` (R59, R143). -/
theorem packIndex_lt {W : Width} {b k : Nat} (h : k < b) : k / W.bytes < Config.keyWords W b := by
  cases W <;> simp [Config.keyWords, Width.bits, Width.bytes] <;> omega

/-! ## Steps 1 and 2: zero L, pack the key (R144) -/

/-- `L[k div u] <- add(rotl(L[k div u], 8), from_byte(K[k]))` (R144). -/
def packByte {W : Width} {c : Nat} (l : Vector (Word W) c) (v : Byte) (m : Nat) (h : m < c) :
    Vector (Word W) c :=
  l.set m (wordAdd (rotl l[m] 8) (fromByte v)) h

/-- The packing loop over `k = n-1` down to `0` (R144). -/
def packDown {W : Width} {b : Nat} (key : Vector Byte b) :
    (n : Nat) → n ≤ b → Vector (Word W) (Config.keyWords W b) → Vector (Word W) (Config.keyWords W b)
  | 0, _, l => l
  | k + 1, h, l =>
    packDown key k (Nat.le_of_succ_le h) (packByte l key[k] (k / W.bytes) (packIndex_lt h))

/-- Step 1, `L[0 .. c-1] <- 0`, and step 2, entered only when `b > 0` (R144, 70_reset_and_hazards.md
R213 (b)). -/
def packKey {W : Width} {b : Nat} (key : Vector Byte b) : Vector (Word W) (Config.keyWords W b) :=
  if b > 0 then packDown key b (Nat.le_refl b) (Vector.replicate _ 0) else Vector.replicate _ 0

/-! ## Step 3: fill S (R146) -/

/-- `n` words: `p`, and each next one the previous plus `q` (R146). -/
def progression {w : Nat} (q : BitVec w) : BitVec w → (n : Nat) → List (BitVec w)
  | _, 0 => []
  | p, n + 1 => p :: progression q (wordAdd p q) n

theorem progression_length {w : Nat} (q p : BitVec w) (n : Nat) : (progression q p n).length = n := by
  induction n generalizing p with
  | zero => rfl
  | succ n ih => simp [progression, ih]

/-- Step 3: `S[0] <- PW`; `S[k] <- add(S[k-1], QW)` for k = 1 .. t-1 (R146). -/
def fillSchedule {w : Nat} (pw qw : BitVec w) (t : Nat) : Vector (BitVec w) t :=
  ⟨(progression qw pw t).toArray, by simp [progression_length]⟩

/-! ## Step 4: mixing (R147, R148) -/

/-- The sequencer state of the mixing loop (10_state.md R40), alive only inside KEYEXP: the running words
A and B, the indices i and j, and the buffers S (t words) and L (c words). -/
structure Mix (w t c : Nat) where
  a : BitVec w
  b : BitVec w
  i : Fin t
  j : Fin c
  s : Vector (BitVec w) t
  l : Vector (BitVec w) c
deriving DecidableEq, Repr

/-- One iteration, lines 1 to 5 of R147: the second line uses the new A and the old B; the indices step as
R148 writes them, j with the new i. -/
def Mix.next {w t c : Nat} (m : Mix w t c) : Mix w t c :=
  let a' := rotl (wordAdd (wordAdd m.s[m.i] m.a) m.b) 3
  let b' := rotl (wordAdd (wordAdd m.l[m.j] a') m.b) (wordAmount (wordAdd a' m.b))
  let i' : Fin t := ⟨(m.i + m.j) % t, Nat.mod_lt _ m.i.pos⟩
  let j' : Fin c := ⟨(m.j + i') % c, Nat.mod_lt _ m.j.pos⟩
  { a := a', b := b', i := i', j := j', s := m.s.set m.i a', l := m.l.set m.j b' }

/-- `n` iterations (R149). -/
def Mix.run {w t c : Nat} : Nat → Mix w t c → Mix w t c
  | 0, m => m
  | n + 1, m => Mix.run n m.next

/-! ## The whole schedule (R140) -/

/-- `t = 2r + 1` (R142). -/
def subkeyCount (r : Nat) : Nat := 2 * r + 1

theorem keyWords_pos (W : Width) (b : Nat) : 0 < Config.keyWords W b := by
  simp [Config.keyWords]

/-- The loop entry of step 4: `A <- 0; B <- 0; i <- 0; j <- 0` over the filled S and the packed L
(R140, R147, R148). -/
def mixStart {W : Width} (pw qw : Word W) {b : Nat} (key : Vector Byte b) (r : Nat) :
    Mix W.bits (subkeyCount r) (Config.keyWords W b) where
  a := 0
  b := 0
  i := ⟨0, Nat.succ_pos _⟩
  j := ⟨0, keyWords_pos W b⟩
  s := fillSchedule pw qw (subkeyCount r)
  l := packKey key

/-- The iteration count `3 * max(c, t)` (R149). -/
def mixCount (W : Width) (b r : Nat) : Nat := 3 * max (Config.keyWords W b) (subkeyCount r)

/-- `expand_key(secret, rounds)` (R140): the `2r + 1` subkey words of a key of `b` bytes. -/
def expandKey {W : Width} (pw qw : Word W) {b : Nat} (key : Vector Byte b) (r : Nat) :
    Vector (Word W) (subkeyCount r) :=
  (Mix.run (mixCount W b r) (mixStart pw qw key r)).s

/-! ## The command -/

/-- KEYEXP on the engine (R140, R141, R150, R151): if `K[0 .. KLEN-1]` all hold values, `S[0 .. t-1]` and
SLEN are written; else UninitRead with the lowest such index, and nothing else changes. -/
def Engine.keyexp {W : Width} (e : Engine W) : Engine W :=
  match Memory.gather e.key e.klen.toNat with
  | .error k => e.raise .uninitRead (BitVec.ofNat 32 (0x100 + k))
  | .ok key =>
    { e with
      sub := Memory.writeFrom e.sub 0 (expandKey e.pw e.qw key e.rounds.toNat).toList
      slen := BitVec.ofNat 9 (subkeyCount e.rounds.toNat) }

/-- KEYEXP (R140). -/
def execKeyexp (s : State) : Outcome := .next (s.withEngine s.engine.keyexp)

end Sys2Proof.Machine
end

