-- ==== Sys2Proof/Machine/Cipher.lean ====
section
/-! DEFINITION. The round processor (43_cipher.md): ENC and DEC. The decrypt lines are the corrected ones
of R166 (90_conflicts.md C1); the round range is 1 .. r-1 in both directions (R163). -/

namespace Sys2Proof.Machine

/-- The block `(A, B)`: the sequencer's working copy of `(X[0], X[1])` (10_state.md R21, R22, R40). -/
abbrev Block (w : Nat) := BitVec w × BitVec w

/-- One encryption round with subkeys `s = S[2i]` and `s' = S[2i+1]` (R162, R164): the second line uses
the new A. -/
def encRound {w : Nat} (s s' : BitVec w) (ab : Block w) : Block w :=
  let a := wordAdd (rotl (wordXor ab.1 ab.2) (wordAmount ab.2)) s
  let b := wordAdd (rotl (wordXor ab.2 a) (wordAmount a)) s'
  (a, b)

/-- One decryption round (R166): the final xor operand of each line is the other register. -/
def decRound {w : Nat} (s s' : BitVec w) (ab : Block w) : Block w :=
  let b := wordXor (rotr (wordSub ab.2 s') (wordAmount ab.1)) ab.1
  let a := wordXor (rotr (wordSub ab.1 s) (wordAmount b)) b
  (a, b)

/-- Encryption rounds i = 1, 2, ..., n in this order (R162, R163), on a schedule of `2r + 1` words. -/
def encRounds {w r : Nat} (S : Vector (BitVec w) (subkeyCount r)) :
    (n : Nat) → n < r → Block w → Block w
  | 0, _, ab => ab
  | n + 1, h, ab =>
    encRound (S[2 * (n + 1)]'(by unfold subkeyCount; omega))
      (S[2 * (n + 1) + 1]'(by unfold subkeyCount; omega))
      (encRounds S n (Nat.lt_of_succ_lt h) ab)

/-- Decryption rounds i = n, n-1, ..., 1 in this order (R163, R166), on a schedule of `2r + 1` words. -/
def decRounds {w r : Nat} (S : Vector (BitVec w) (subkeyCount r)) :
    (n : Nat) → n < r → Block w → Block w
  | 0, _, ab => ab
  | n + 1, h, ab =>
    decRounds S n (Nat.lt_of_succ_lt h)
      (decRound (S[2 * (n + 1)]'(by unfold subkeyCount; omega))
        (S[2 * (n + 1) + 1]'(by unfold subkeyCount; omega)) ab)

/-- Encrypt (R162): the input additions, then rounds 1 .. r-1. -/
def encrypt {w r : Nat} (h : 0 < r) (S : Vector (BitVec w) (subkeyCount r)) (x : Block w) : Block w :=
  encRounds S (r - 1) (Nat.sub_lt h Nat.one_pos)
    (wordAdd x.1 (S[0]'(by unfold subkeyCount; omega)),
      wordAdd x.2 (S[1]'(by unfold subkeyCount; omega)))

/-- Decrypt (R166): rounds r-1 .. 1, then the output subtractions. -/
def decrypt {w r : Nat} (h : 0 < r) (S : Vector (BitVec w) (subkeyCount r)) (x : Block w) : Block w :=
  let ab := decRounds S (r - 1) (Nat.sub_lt h Nat.one_pos) x
  (wordSub ab.1 (S[0]'(by unfold subkeyCount; omega)),
    wordSub ab.2 (S[1]'(by unfold subkeyCount; omega)))

/-- What ENC and DEC share: the preconditions in the order of R161, then the transform of the block
`(X[0], X[1])` (10_state.md R21, R22). `cw` is the command word. -/
def Engine.cipher {W : Width} (e : Engine W) (cw : BitVec 32)
    (f : (r : Nat) → 0 < r → Vector (Word W) (subkeyCount r) → Block W.bits → Block W.bits) : Engine W :=
  if hr : e.rounds.toNat = 0 then e.raise .roundsZero cw
  else if e.slen.toNat ≠ subkeyCount e.rounds.toNat then e.raise .schedMismatch (e.slen.setWidth 32)
  else
    match Memory.gather e.sub (subkeyCount e.rounds.toNat) with
    | .error k => e.raise .uninitRead (BitVec.ofNat 32 (0x200 + k))
    | .ok S =>
      let ab := f e.rounds.toNat (Nat.pos_of_ne_zero hr) S (e.x0, e.x1)
      { e with x0 := ab.1, x1 := ab.2 }

/-- ENC (R162). -/
def execEnc (s : State) : Outcome :=
  .next (s.withEngine (s.engine.cipher (encode .enc) (fun _ h S x => encrypt h S x)))

/-- DEC (R166). -/
def execDec (s : State) : Outcome :=
  .next (s.withEngine (s.engine.cipher (encode .dec) (fun _ h S x => decrypt h S x)))

end Sys2Proof.Machine
end

