-- ==== Sys2Proof/Machine/Rotator.lean ====
section
/-! DEFINITION. The rotate commands of 41_rotator.md: ROTL, ROTR, ROTLI, ROTRI. -/

namespace Sys2Proof.Machine

/-- ROTL (R133): `X[rd] <- rotl(X[rs1], X[rs2])`. -/
def execRotl (rd rs1 rs2 : Reg) (s : State) : Outcome := s.commandRAmount rd rs1 rs2 rotl

/-- ROTR (R134): `X[rd] <- rotr(X[rs1], X[rs2])`. -/
def execRotr (rd rs1 rs2 : Reg) (s : State) : Outcome := s.commandRAmount rd rs1 rs2 rotr

/-- ROTLI (R135): `X[rd] <- rotl(X[rs1], imm16)`. -/
def execRotli (rd rs1 : Reg) (imm16 : Nat) (s : State) : Outcome := s.commandI rd rs1 imm16 rotl

/-- ROTRI (R136): `X[rd] <- rotr(X[rs1], imm16)`. -/
def execRotri (rd rs1 : Reg) (imm16 : Nat) (s : State) : Outcome := s.commandI rd rs1 imm16 rotr

end Sys2Proof.Machine
end

