-- ==== Sys2Proof/Machine/WordAlu.lean ====
section
/-! DEFINITION. The word commands of 40_word_alu.md: ADD, SUB, XOR, OR, AND, SHL, SHR, SHLI, SHRI, LDI,
LDB. -/

namespace Sys2Proof.Machine

/-- ADD (R112): `X[rd] <- add(X[rs1], X[rs2])`. -/
def execAdd (rd rs1 rs2 : Reg) (s : State) : Outcome := s.commandR rd rs1 rs2 wordAdd

/-- SUB (R113): `X[rd] <- sub(X[rs1], X[rs2])`. -/
def execSub (rd rs1 rs2 : Reg) (s : State) : Outcome := s.commandR rd rs1 rs2 wordSub

/-- XOR (R114): `X[rd] <- xor(X[rs1], X[rs2])`. -/
def execXor (rd rs1 rs2 : Reg) (s : State) : Outcome := s.commandR rd rs1 rs2 wordXor

/-- OR (R115): `X[rd] <- or(X[rs1], X[rs2])`. -/
def execOr (rd rs1 rs2 : Reg) (s : State) : Outcome := s.commandR rd rs1 rs2 wordOr

/-- AND (R116): `X[rd] <- and(X[rs1], X[rs2])`. -/
def execAnd (rd rs1 rs2 : Reg) (s : State) : Outcome := s.commandR rd rs1 rs2 wordAnd

/-- SHL (R117): `X[rd] <- shl(X[rs1], X[rs2])`. -/
def execShl (rd rs1 rs2 : Reg) (s : State) : Outcome := s.commandRAmount rd rs1 rs2 shl

/-- SHR (R118): `X[rd] <- shr(X[rs1], X[rs2])`. -/
def execShr (rd rs1 rs2 : Reg) (s : State) : Outcome := s.commandRAmount rd rs1 rs2 shr

/-- SHLI (R119): `X[rd] <- shl(X[rs1], imm16)`. -/
def execShli (rd rs1 : Reg) (imm16 : Nat) (s : State) : Outcome := s.commandI rd rs1 imm16 shl

/-- SHRI (R120): `X[rd] <- shr(X[rs1], imm16)`. -/
def execShri (rd rs1 : Reg) (imm16 : Nat) (s : State) : Outcome := s.commandI rd rs1 imm16 shr

/-- LDI (R121): `X[rd] <- from_uint(imm16)`. -/
def execLdi (rd : Reg) (imm16 : Nat) (s : State) : Outcome := s.commandL rd (fromUint imm16)

/-- LDB (R122): `X[rd] <- from_byte(imm8)`. -/
def execLdb (rd : Reg) (imm8 : Nat) (s : State) : Outcome := s.commandL rd (fromByte (immByte imm8))

end Sys2Proof.Machine
end

