-- ==== Sys2Proof/Machine/Dispatch.lean ====
section
/-! DEFINITION. One arm per command (30_encoding.md R70, R76): perform the command's rule. The checks of a
host write come before it (20_memory.md R53) and are made by the host port. -/

namespace Sys2Proof.Machine

def exec (i : Instr) (s : State) : Host.Outcome State Fault Refusal :=
  match i with
  | .keyexp => Sys2Proof.Machine.execKeyexp s
  | .enc => Sys2Proof.Machine.execEnc s
  | .dec => Sys2Proof.Machine.execDec s
  | .add rd rs1 rs2 => Sys2Proof.Machine.execAdd rd rs1 rs2 s
  | .sub rd rs1 rs2 => Sys2Proof.Machine.execSub rd rs1 rs2 s
  | .xor rd rs1 rs2 => Sys2Proof.Machine.execXor rd rs1 rs2 s
  | .or rd rs1 rs2 => Sys2Proof.Machine.execOr rd rs1 rs2 s
  | .and rd rs1 rs2 => Sys2Proof.Machine.execAnd rd rs1 rs2 s
  | .shl rd rs1 rs2 => Sys2Proof.Machine.execShl rd rs1 rs2 s
  | .shr rd rs1 rs2 => Sys2Proof.Machine.execShr rd rs1 rs2 s
  | .rotl rd rs1 rs2 => Sys2Proof.Machine.execRotl rd rs1 rs2 s
  | .rotr rd rs1 rs2 => Sys2Proof.Machine.execRotr rd rs1 rs2 s
  | .ldi rd imm16 => Sys2Proof.Machine.execLdi rd imm16 s
  | .ldb rd imm8 => Sys2Proof.Machine.execLdb rd imm8 s
  | .shli rd rs1 imm16 => Sys2Proof.Machine.execShli rd rs1 imm16 s
  | .shri rd rs1 imm16 => Sys2Proof.Machine.execShri rd rs1 imm16 s
  | .rotli rd rs1 imm16 => Sys2Proof.Machine.execRotli rd rs1 imm16 s
  | .rotri rd rs1 imm16 => Sys2Proof.Machine.execRotri rd rs1 imm16 s

end Sys2Proof.Machine
end

