-- ==== Sys2Proof/Machine/Flags.lean ====
section
/-! DEFINITION. CBC-CORE has no condition codes: no command produces or consumes a flag (10_state.md R24).
The only status bits are those of STATUS, which only a fault and reset write. -/

namespace Sys2Proof.Machine

/-- STATUS as the host reads it (R26): FAULT in bit 0, BUSY (bit 1) hardwired 0, CAUSE in 7:4, every
reserved bit 0. -/
def Engine.statusWord {W : Width} (e : Engine W) : Bus W :=
  (e.cause ++ 0#2 ++ 0#1 ++ BitVec.ofBool e.fault).setWidth W.dw

end Sys2Proof.Machine
end

