-- ==== Sys2Proof/Machine/HostPort.lean ====
section
/-! DEFINITION. The host register space (20_memory.md R50 to R58): the address map, host reads, host writes
with the command inside a `CMD` write (30_encoding.md R70), reset, and the performing of one host
operation. -/

namespace Sys2Proof.Machine

/-! ## The address map (R56) -/

/-- The mapped registers (R56). -/
inductive HostReg where
  | cmd
  | status
  | finfo
  | config
  | rounds
  | klen
  | slen
  | pw
  | qw
  /-- `X[i]`. -/
  | x (i : Reg)
  /-- `K[k]`, k = 0 .. 254. -/
  | key (k : Fin Config.kmax)
  /-- `S[k]`, k = 0 .. 510. -/
  | subkey (k : Fin Config.tmax)
deriving DecidableEq, Repr

/-- The address of a register (R56). -/
def HostReg.addr : HostReg → BitVec 10
  | .cmd => 0x000#10
  | .status => 0x001#10
  | .finfo => 0x002#10
  | .config => 0x003#10
  | .rounds => 0x004#10
  | .klen => 0x005#10
  | .slen => 0x006#10
  | .pw => 0x008#10
  | .qw => 0x009#10
  | .x .x0 => 0x010#10
  | .x .x1 => 0x011#10
  | .x .x2 => 0x012#10
  | .x .x3 => 0x013#10
  | .key k => BitVec.ofNat 10 (0x100 + k)
  | .subkey k => BitVec.ofNat 10 (0x200 + k)

/-- The register at an address, if it is mapped (R56). -/
def HostReg.ofAddr (a : BitVec 10) : Option HostReg :=
  match a.toNat with
  | 0x000 => some .cmd
  | 0x001 => some .status
  | 0x002 => some .finfo
  | 0x003 => some .config
  | 0x004 => some .rounds
  | 0x005 => some .klen
  | 0x006 => some .slen
  | 0x008 => some .pw
  | 0x009 => some .qw
  | 0x010 => some (.x .x0)
  | 0x011 => some (.x .x1)
  | 0x012 => some (.x .x2)
  | 0x013 => some (.x .x3)
  | n =>
    if n < 0x100 then none
    else if h : n - 0x100 < Config.kmax then some (.key ⟨n - 0x100, h⟩)
    else if n < 0x200 then none
    else if h : n - 0x200 < Config.tmax then some (.subkey ⟨n - 0x200, h⟩)
    else none

/-- The width of a register in bits (R56, R58). -/
def HostReg.width (W : Width) : HostReg → Nat
  | .cmd => 32
  | .status => W.dw
  | .finfo => W.dw
  | .config => W.dw
  | .rounds => 8
  | .klen => 8
  | .slen => 9
  | .pw => W.bits
  | .qw => W.bits
  | .x _ => W.bits
  | .key _ => 8
  | .subkey _ => W.bits

/-- The read-only registers (R53 case 3, R56). -/
def HostReg.readOnly : HostReg → Bool
  | .status => true
  | .finfo => true
  | .config => true
  | .pw => true
  | .qw => true
  | .cmd => false
  | .rounds => false
  | .klen => false
  | .slen => false
  | .x _ => false
  | .key _ => false
  | .subkey _ => false

/-- CONFIG (10_state.md R28): WBYTES in 3:0, KMAX in 15:8, RMAX in 23:16, every other bit 0. -/
def configWord (W : Width) : Bus W :=
  (BitVec.ofNat 8 Config.rmax ++ BitVec.ofNat 8 Config.kmax ++ 0#4 ++ BitVec.ofNat 4 W.bytes).setWidth W.dw

/-! ## Host read (R52) -/

/-- A fault of a host access carries the address (60_exceptions.md R181). -/
def Engine.raiseAt {W : Width} (e : Engine W) (c : Cause) (addr : BitVec 10) : Engine W :=
  e.raise c (addr.setWidth 32)

/-- A read of an entry of `K` or `S` (R52 cases 3 and 4). -/
def Engine.readEntry {W : Width} {n : Nat} (e : Engine W) (addr : BitVec 10) (entry : Option (BitVec n)) :
    Engine W × Bus W :=
  match entry with
  | none => (e.raiseAt .uninitRead addr, 0)
  | some v => (e, v.setWidth W.dw)

/-- Host read (R52): the engine after it and the DW-bit value it returns. A faulting read returns 0, and
while a fault is recorded it records nothing (`Engine.raise` keeps the first, R191). -/
def Engine.hostRead {W : Width} (e : Engine W) (addr : BitVec 10) : Engine W × Bus W :=
  match HostReg.ofAddr addr with
  | none => (e.raiseAt .badAddress addr, 0)
  | some .cmd => (e.raiseAt .accessType addr, 0)
  | some .status => (e, e.statusWord)
  | some .finfo => (e, e.finfo)
  | some .config => (e, configWord W)
  | some .rounds => (e, e.rounds.setWidth W.dw)
  | some .klen => (e, e.klen.setWidth W.dw)
  | some .slen => (e, e.slen.setWidth W.dw)
  | some .pw => (e, e.pw.setWidth W.dw)
  | some .qw => (e, e.qw.setWidth W.dw)
  | some (.x i) => (e, (e.getX i).setWidth W.dw)
  | some (.key k) => e.readEntry addr (Memory.read e.key k)
  | some (.subkey k) => e.readEntry addr (Memory.read e.sub k)

/-! ## Host write (R53) -/

/-- R53 case 6: store a legal value in a writable register. The read-only registers and CMD have nothing to
store into (10_state.md R25). -/
def Engine.store {W : Width} (e : Engine W) (r : HostReg) (v : Bus W) : Engine W :=
  match r with
  | .rounds => { e with rounds := v.setWidth 8 }
  | .klen => { e with klen := v.setWidth 8 }
  | .slen => { e with slen := v.setWidth 9 }
  | .x i => e.setX i (v.setWidth W.bits)
  | .key k => { e with key := Memory.write e.key k (v.setWidth 8) }
  | .subkey k => { e with sub := Memory.write e.sub k (v.setWidth W.bits) }
  | .cmd => e
  | .status => e
  | .finfo => e
  | .config => e
  | .pw => e
  | .qw => e

/-- Perform the command word `cw` (30_encoding.md R70): an illegal word raises IllegalCommand (R75), every
other word is executed. -/
def State.command (s : State) (cw : BitVec 32) : Outcome :=
  match decode cw with
  | .error _ => .next (s.withEngine (s.engine.raise .illegalCommand cw))
  | .ok i => exec i s

/-- Host write (R53), the first case that applies; the order is also that of 60_exceptions.md R189. -/
def State.hostWrite (s : State) (addr : BitVec 10) (v : Bus s.width) : Outcome :=
  if s.engine.fault then .next s
  else
    match HostReg.ofAddr addr with
    | none => .next (s.withEngine (s.engine.raiseAt .badAddress addr))
    | some r =>
      if r.readOnly then .next (s.withEngine (s.engine.raiseAt .accessType addr))
      else if 2 ^ r.width s.width ≤ v.toNat then .next (s.withEngine (s.engine.raiseAt .badValue addr))
      else if r = .cmd then s.command (v.setWidth 32)
      else .next (s.withEngine (s.engine.store r v))

/-! ## One host operation (00_scope.md R19) -/

/-- Perform one host operation: a read also returns its value to the host. -/
def State.perform (s : State) (op : HostOp s.width) : Outcome :=
  match op with
  | .read addr =>
    .next { s with
      engine := (s.engine.hostRead addr).1
      returned := s.returned ++ [(s.engine.hostRead addr).2] }
  | .write addr v => s.hostWrite addr v
  | .reset => .next (s.withEngine s.engine.doReset)

/-- The next host operation is taken from the front of `pending` and performed. With none to come the
engine is idle and nothing changes (10_state.md R23 (a)). -/
def State.nextHostOp (s : State) : Outcome :=
  match s.pending with
  | [] => .next s
  | op :: rest => ({ s with pending := rest } : State).perform op

/-- A host write of a command word to CMD (10_state.md R25), the word zero-extended to the port. -/
def commandWrite (W : Width) (cw : BitVec 32) : HostOp W := .write HostReg.cmd.addr (cw.setWidth W.dw)

end Sys2Proof.Machine
end

