-- ==== Sys2Proof/Machine/Step.lean ====
section
/-! DEFINITION. One step of the machine is one host operation (00_scope.md R19); a write to CMD includes
the whole command. -/

namespace Sys2Proof.Machine

/-- One step: the next host operation is performed (R19). -/
def step (s : State) : Host.Outcome State Fault Refusal := s.nextHostOp

/-- The state with the host write of a command word as its next host operation (log entry 3). The machine
fetches nothing (20_memory.md R62): the host hands each command over as a `CMD` write. -/
def State.withFetchWord (s : State) (nbits w : Nat) : State :=
  { s with pending := commandWrite s.width (BitVec.ofNat 32 (w % 2 ^ nbits)) :: s.pending }

end Sys2Proof.Machine
end

