-- ==== Sys2Proof/Machine/Assembler.lean ====
section
/-! DEFINITION. The assembler lines of 30_encoding.md R86 and the pseudo-instructions of R87 as the host
operations they expand to. An operand out of range is refused and not truncated (R86); a secret longer
than `KMAX` bytes cannot be loaded (42_key_schedule.md R157, 93_implementation_defined.md U18). -/

namespace Sys2Proof.Machine

/-- One line of a host program (R86, R87). -/
inductive Line (W : Width) where
  /-- `wr NAME, value`. -/
  | wr (r : HostReg) (v : Bus W)
  /-- `rd NAME`. -/
  | rd (r : HostReg)
  /-- `reset`. -/
  | reset
  /-- A command line, `KEYEXP` or `ADD Xd, Xa, Xb` and so on. -/
  | command (i : Instr)
  /-- `MOV Xd, Xa`. -/
  | mov (xd xa : Reg)
  /-- `CLR Xd`. -/
  | clr (xd : Reg)
  /-- `ONE Xd`. -/
  | one (xd : Reg)
  /-- `SETKEY b0, ..., b(n-1)`. -/
  | setkey (bytes : List Byte)
  /-- `SETBLK a, b`. -/
  | setblk (a b : Word W)
  /-- `ENCRYPTK r`. -/
  | encryptk (r : Bus W)
  /-- `DECRYPTK r`. -/
  | decryptk (r : Bus W)
deriving DecidableEq, Repr

/-- `wr NAME, value` (R86). -/
def wrOp {W : Width} (r : HostReg) (v : Bus W) : HostOp W := .write r.addr v

/-- `wr CMD, cw` with the word of a command whose operands are in range (R86). -/
def commandOps {W : Width} (i : Instr) : Option (List (HostOp W)) :=
  (assemble i).map (fun cw => [commandWrite W cw])

/-- `wr K[k], b` for the bytes of a secret from index `k` on (R87 SETKEY). A secret of more than 255 bytes is
refused (93_implementation_defined.md U18; DEDUCED, log entry 12; safe). -/
def keyByteOps {W : Width} : Nat → List Byte → Option (List (HostOp W))
  | _, [] => some []
  | k, v :: vs =>
    if h : k < Config.kmax then
      (keyByteOps (k + 1) vs).map (fun rest => wrOp (.key ⟨k, h⟩) (v.setWidth W.dw) :: rest)
    else none

/-- The host operations a line stands for, or nothing when the assembler refuses it (R86, R87). -/
def Line.expand {W : Width} : Line W → Option (List (HostOp W))
  | .wr r v => some [wrOp r v]
  | .rd r => some [.read r.addr]
  | .reset => some [.reset]
  | .command i => commandOps i
  | .mov xd xa => commandOps (.or xd xa xa)
  | .clr xd => commandOps (.ldi xd 0)
  | .one xd => commandOps (.ldi xd 1)
  | .setkey bytes =>
    (keyByteOps 0 bytes).map (fun ops => ops ++ [wrOp .klen (BitVec.ofNat W.dw bytes.length)])
  | .setblk a b => some [wrOp (.x .x0) (a.setWidth W.dw), wrOp (.x .x1) (b.setWidth W.dw)]
  | .encryptk r => some [wrOp .rounds r, commandWrite W (encode .keyexp), commandWrite W (encode .enc)]
  | .decryptk r => some [wrOp .rounds r, commandWrite W (encode .keyexp), commandWrite W (encode .dec)]

end Sys2Proof.Machine
end

