-- ==== Sys2Proof/Safety.lean ====
section
/-! DEFINITION. What counts as a safe run (00_scope.md R19, 60_exceptions.md R191), and the invariant of the
machine: what every state a run reaches has in common. -/

namespace Sys2Proof.Safety

open Sys2Proof.Machine

/-- No fault is recorded: the engine is not halted (60_exceptions.md R191). -/
def running (s : State) : Prop := s.engine.fault = false

/-- A run of `n` host operations that has not gone wrong: it does not end with `STATUS.FAULT = 1` (R19). -/
def safeRun (n : Nat) (s : State) : Prop :=
  match Host.Core.run Sys2Proof.core n s with
  | .next s' => running s'
  | .fault _ => False
  | .refused _ => False

/-- The invariant: both memories in canonical form (DESIGN CHOICE, log entry 9; safe) within their sizes
(10_state.md R33, R34), CAUSE and FINFO 0 while FAULT is 0 (10_state.md R26, R27), and a code of
60_exceptions.md R181 in CAUSE while FAULT is 1. -/
def Inv (s : State) : Prop :=
  Memory.wf Config.kmax s.engine.key = true ∧
  Memory.wf Config.tmax s.engine.sub = true ∧
  (s.engine.fault = false → s.engine.cause = 0 ∧ s.engine.finfo = 0) ∧
  (s.engine.fault = true → 1 ≤ s.engine.cause.toNat ∧ s.engine.cause.toNat ≤ 7)

end Sys2Proof.Safety
end

