-- ==== Sys2Proof/Certificates/Slice0/Obligations.lean ====
section
/-! DEFINITION. The statements for the provers. A state is written ⟨W, e, p, o⟩: the width of the instance,
the engine, the host operations still to come, the values returned to the host. Each statement holds for
every width and every PW, QW. -/

open Sys2Proof Sys2Proof.Machine

/-! ## Words the statements share -/

namespace Sys2Proof.Spec

/-- Of two engine states only `X[rd]` may differ: the frame of a word or rotate command (R111). -/
def onlyX {W : Width} (rd : Reg) (e e' : Engine W) : Prop :=
  (∀ r, r ≠ rd → e'.getX r = e.getX r) ∧
  e'.rounds = e.rounds ∧ e'.klen = e.klen ∧ e'.slen = e.slen ∧
  (∀ k, Memory.read e'.key k = Memory.read e.key k) ∧
  (∀ k, Memory.read e'.sub k = Memory.read e.sub k) ∧
  e'.fault = e.fault ∧ e'.cause = e.cause ∧ e'.finfo = e.finfo ∧ e'.pw = e.pw ∧ e'.qw = e.qw

/-- Of two engine states only `S` and `SLEN` may differ: the frame of KEYEXP (R151). -/
def onlySchedule {W : Width} (e e' : Engine W) : Prop :=
  (∀ r, e'.getX r = e.getX r) ∧ e'.rounds = e.rounds ∧ e'.klen = e.klen ∧
  (∀ k, Memory.read e'.key k = Memory.read e.key k) ∧
  e'.fault = e.fault ∧ e'.cause = e.cause ∧ e'.finfo = e.finfo ∧ e'.pw = e.pw ∧ e'.qw = e.qw

/-- Fault entry (R190) that keeps the first fault (R191). -/
def recordFault {W : Width} (e : Engine W) (code : BitVec 4) (info : Nat) : Engine W :=
  if e.fault = true then e
  else { e with fault := true, cause := code, finfo := BitVec.ofNat W.dw info }

/-- The addresses R56 names as unmapped. -/
def unmapped (a : BitVec 10) : Prop :=
  a.toNat = 0x007 ∨ (0x00A ≤ a.toNat ∧ a.toNat ≤ 0x00F) ∨ (0x014 ≤ a.toNat ∧ a.toNat ≤ 0x0FF) ∨
  a.toNat = 0x1FF ∨ a.toNat = 0x3FF

/-- The preconditions of ENC and DEC (R161) hold. -/
def cipherReady {W : Width} (e : Engine W) : Prop :=
  e.rounds.toNat ≠ 0 ∧ e.slen.toNat = 2 * e.rounds.toNat + 1 ∧
  ∀ k, k < 2 * e.rounds.toNat + 1 → Memory.read e.sub k ≠ none

/-- The precondition of KEYEXP (R141) holds. -/
def keyReady {W : Width} (e : Engine W) : Prop :=
  ∀ k, k < e.klen.toNat → Memory.read e.key k ≠ none

/-- The register a word or rotate command writes; the engine commands have none (R111). -/
def destination : Instr → Option Reg
  | .keyexp => none
  | .enc => none
  | .dec => none
  | .add rd _ _ => some rd
  | .sub rd _ _ => some rd
  | .xor rd _ _ => some rd
  | .or rd _ _ => some rd
  | .and rd _ _ => some rd
  | .shl rd _ _ => some rd
  | .shr rd _ _ => some rd
  | .rotl rd _ _ => some rd
  | .rotr rd _ _ => some rd
  | .ldi rd _ => some rd
  | .ldb rd _ => some rd
  | .shli rd _ _ => some rd
  | .shri rd _ _ => some rd
  | .rotli rd _ _ => some rd
  | .rotri rd _ _ => some rd

/-- The pseudocode of KEYEXP (R140, R144, R146, R147, R148) as sequences: `P k` is L when the packing loop
has processed bytes b-1 down to k; `F` is S after step 3; `A n`, `B n`, `I n`, `J n`, `S n`, `L n` are the
sequencer state before mixing iteration n. -/
structure KeyexpTrace {W : Width} (pw qw : Word W) (b r : Nat) (K : Nat → Byte)
    (P : Nat → Nat → Word W) (F : Nat → Word W) (A B : Nat → Word W) (I J : Nat → Nat)
    (S L : Nat → Nat → Word W) : Prop where
  zeroed : ∀ m, P b m = 0
  packed : ∀ k < b, P k (k / W.bytes) = wordAdd (rotl (P (k + 1) (k / W.bytes)) 8) (fromByte (K k))
  packedOther : ∀ k < b, ∀ m, m ≠ k / W.bytes → P k m = P (k + 1) m
  fillFirst : F 0 = pw
  fillNext : ∀ k, k + 1 < 2 * r + 1 → F (k + 1) = wordAdd (F k) qw
  startA : A 0 = 0
  startB : B 0 = 0
  startI : I 0 = 0
  startJ : J 0 = 0
  startS : ∀ k < 2 * r + 1, S 0 k = F k
  startL : ∀ m < max 1 ((8 * b + W.bits - 1) / W.bits), L 0 m = P 0 m
  line1 : ∀ n, S (n + 1) (I n) = rotl (wordAdd (wordAdd (S n (I n)) (A n)) (B n)) 3
  line1Other : ∀ n k, k ≠ I n → S (n + 1) k = S n k
  line2 : ∀ n, A (n + 1) = S (n + 1) (I n)
  line3 : ∀ n, L (n + 1) (J n) =
    rotl (wordAdd (wordAdd (L n (J n)) (A (n + 1))) (B n)) (wordAdd (A (n + 1)) (B n)).toNat
  line3Other : ∀ n m, m ≠ J n → L (n + 1) m = L n m
  line4 : ∀ n, B (n + 1) = L (n + 1) (J n)
  line5I : ∀ n, I (n + 1) = (I n + J n) % (2 * r + 1)
  line5J : ∀ n, J (n + 1) = (J n + I (n + 1)) % max 1 ((8 * b + W.bits - 1) / W.bits)

end Sys2Proof.Spec

/-! ## The word functions (40_word_alu.md) -/

/-- R101 and R102: addition and subtraction wrap modulo 2^w. -/
def Obligations.WordAddAndSubWrap : Prop :=
  ∀ (W : Width) (x y z : Word W),
    (wordAdd x y).toNat = (x.toNat + y.toNat) % 2 ^ W.bits ∧
    wordAdd x y = wordAdd y x ∧
    wordAdd (wordAdd x y) z = wordAdd x (wordAdd y z) ∧
    wordAdd x 0 = x ∧
    wordAdd (BitVec.ofNat W.bits (2 ^ W.bits - 1)) 1 = 0 ∧
    (wordSub x y).toNat =
      (if y.toNat ≤ x.toNat then x.toNat - y.toNat else x.toNat + 2 ^ W.bits - y.toNat) ∧
    (wordSub x y).toNat = (2 ^ W.bits + x.toNat - y.toNat) % 2 ^ W.bits ∧
    (wordSub 0 1 : Word W) = BitVec.ofNat W.bits (2 ^ W.bits - 1) ∧
    wordSub (wordAdd x y) y = x ∧
    wordAdd (wordSub x y) y = x

/-- R103, R104 and R105: xor, or and and act bit by bit. -/
def Obligations.BitwiseFunctionsActBitByBit : Prop :=
  ∀ (W : Width) (x y : Word W),
    (∀ k < W.bits, (wordXor x y).getLsbD k = (x.getLsbD k ^^ y.getLsbD k)) ∧
    (∀ k < W.bits, (wordOr x y).getLsbD k = (x.getLsbD k || y.getLsbD k)) ∧
    (∀ k < W.bits, (wordAnd x y).getLsbD k = (x.getLsbD k && y.getLsbD k)) ∧
    wordXor (wordXor x y) y = x ∧ wordXor x x = 0 ∧ wordXor x 0 = x ∧
    wordOr x x = x ∧ wordOr x 0 = x ∧
    wordAnd x x = x ∧ wordAnd x 0 = 0 ∧ wordAnd x (BitVec.ofNat W.bits (2 ^ W.bits - 1)) = x

/-- R106 and R107: the amount of a shift is reduced modulo w; the right shift is logical. -/
def Obligations.ShiftsReduceTheirAmount : Prop :=
  ∀ (W : Width) (x : Word W) (n : Nat),
    (shl x n).toNat = x.toNat * 2 ^ (n % W.bits) % 2 ^ W.bits ∧
    (shr x n).toNat = x.toNat / 2 ^ (n % W.bits) ∧
    (∀ k < n % W.bits, (shl x n).getLsbD k = false) ∧
    (∀ k, k + n % W.bits < W.bits → (shl x n).getLsbD (k + n % W.bits) = x.getLsbD k) ∧
    (∀ k < W.bits, (shr x n).getLsbD k = (decide (k + n % W.bits < W.bits) && x.getLsbD (k + n % W.bits))) ∧
    shl x W.bits = x ∧ shl x 0 = x ∧ shr x W.bits = x ∧ shr x 0 = x

/-- R108 and R109: construction of a Word from a Byte and from a non-negative integer. -/
def Obligations.WordsFromBytesAndIntegers : Prop :=
  ∀ (W : Width) (v : Byte) (n : Nat),
    (fromByte v : Word W).toNat = v.toNat ∧ (fromUint n : Word W).toNat = n % 2 ^ W.bits

/-- R123: the laws of the word unit. -/
def Obligations.WordAlgebraLaws : Prop :=
  ∀ (W : Width) (x y z : Word W),
    wordAdd x y = wordAdd y x ∧ wordAdd (wordAdd x y) z = wordAdd x (wordAdd y z) ∧
    wordAdd x (wordSub 0 x) = 0 ∧ wordSub x y = wordAdd x (wordSub 0 y) ∧
    wordXor x y = wordXor y x ∧ wordXor (wordXor x y) z = wordXor x (wordXor y z) ∧
    wordOr x y = wordOr y x ∧ wordOr (wordOr x y) z = wordOr x (wordOr y z) ∧
    wordAnd x y = wordAnd y x ∧ wordAnd (wordAnd x y) z = wordAnd x (wordAnd y z)

/-- R124: with no bit set in both, addition is or and xor, with no carry. -/
def Obligations.DisjointAddIsOrAndXor : Prop :=
  ∀ (W : Width) (x y : Word W), wordAnd x y = 0 →
    wordAdd x y = wordOr x y ∧ wordAdd x y = wordXor x y ∧ x.toNat + y.toNat < 2 ^ W.bits

/-! ## The rotator (41_rotator.md) -/

/-- R130 and R131: where each bit goes. -/
def Obligations.RotationsMoveBits : Prop :=
  ∀ (W : Width) (x : Word W) (n k : Nat), k < W.bits →
    (rotl x n).getLsbD ((k + n % W.bits) % W.bits) = x.getLsbD k ∧
    (rotr x n).getLsbD k = x.getLsbD ((k + n % W.bits) % W.bits)

/-- R132: the identities the document requires, (a) to (e). -/
def Obligations.RotationIdentities : Prop :=
  ∀ (W : Width) (x : Word W) (m n : Nat),
    (n % W.bits = 0 → rotl x n = x ∧ rotr x n = x) ∧
    rotl x 0 = x ∧ rotl x W.bits = x ∧
    rotl x n = rotr x ((W.bits - n % W.bits) % W.bits) ∧
    rotl (rotl x n) (W.bits - n % W.bits) = x ∧
    rotr (rotl x n) n = x ∧ rotl (rotr x n) n = x ∧
    rotl (rotl x m) n = rotl x (m + n)

/-- R137: the rotations by the shifts, with and without the special case. -/
def Obligations.RotationsAreOrsOfShifts : Prop :=
  ∀ (W : Width) (x : Word W) (n : Nat),
    (n % W.bits = 0 → rotl x n = x ∧ rotr x n = x) ∧
    (n % W.bits ≠ 0 →
      rotl x n = wordOr (shl x (n % W.bits)) (shr x (W.bits - n % W.bits)) ∧
      rotr x n = wordOr (shr x (n % W.bits)) (shl x (W.bits - n % W.bits))) ∧
    (n % W.bits = 0 →
      wordOr (shl x (n % W.bits)) (shr x (W.bits - n % W.bits)) = x ∧
      wordOr (shr x (n % W.bits)) (shl x (W.bits - n % W.bits)) = x)

/-- R138 and R125: of a Word used as an amount only the low log2(w) bits count, and wrapping an amount
modulo 2^w changes nothing. -/
def Obligations.RotationAmountIsTheLowBits : Prop :=
  ∀ (W : Width) (x y : Word W) (n : Nat),
    (n % 2 ^ W.bits) % W.bits = n % W.bits ∧
    y.toNat % W.bits = (wordAnd y (BitVec.ofNat W.bits (W.bits - 1))).toNat ∧
    (W.bits = 8 → y.toNat % W.bits = y.toNat % 2 ^ 3) ∧
    (W.bits = 16 → y.toNat % W.bits = y.toNat % 2 ^ 4) ∧
    (W.bits = 32 → y.toNat % W.bits = y.toNat % 2 ^ 5) ∧
    (W.bits = 64 → y.toNat % W.bits = y.toNat % 2 ^ 6) ∧
    rotl x y.toNat = rotl x (wordAnd y (BitVec.ofNat W.bits (W.bits - 1))).toNat ∧
    rotr x y.toNat = rotr x (wordAnd y (BitVec.ofNat W.bits (W.bits - 1))).toNat

/-! ## The word and rotate commands: completion, result and frame -/

/-- R112 and R113: ADD and SUB. -/
def Obligations.AddAndSubWriteWrappedResult : Prop :=
  ∀ (W : Width) (e : Engine W) (p : List (HostOp W)) (o : List (Bus W)) (rd rs1 rs2 : Reg),
    e.fault = false →
    (decode (encodeR 0x10#8 rd rs1 rs2) = .ok (.add rd rs1 rs2) ∧
      ∃ e', exec (.add rd rs1 rs2) ⟨W, e, p, o⟩ = .next ⟨W, e', p, o⟩ ∧
        (e'.getX rd).toNat = ((e.getX rs1).toNat + (e.getX rs2).toNat) % 2 ^ W.bits ∧
        Spec.onlyX rd e e') ∧
    (decode (encodeR 0x11#8 rd rs1 rs2) = .ok (.sub rd rs1 rs2) ∧
      ∃ e', exec (.sub rd rs1 rs2) ⟨W, e, p, o⟩ = .next ⟨W, e', p, o⟩ ∧
        (e'.getX rd).toNat = (2 ^ W.bits + (e.getX rs1).toNat - (e.getX rs2).toNat) % 2 ^ W.bits ∧
        Spec.onlyX rd e e')

/-- R114, R115 and R116: XOR, OR and AND. -/
def Obligations.BitwiseCommandsWriteBits : Prop :=
  ∀ (W : Width) (e : Engine W) (p : List (HostOp W)) (o : List (Bus W)) (rd rs1 rs2 : Reg),
    e.fault = false →
    (decode (encodeR 0x12#8 rd rs1 rs2) = .ok (.xor rd rs1 rs2) ∧
      ∃ e', exec (.xor rd rs1 rs2) ⟨W, e, p, o⟩ = .next ⟨W, e', p, o⟩ ∧
        (∀ k < W.bits, (e'.getX rd).getLsbD k = ((e.getX rs1).getLsbD k ^^ (e.getX rs2).getLsbD k)) ∧
        Spec.onlyX rd e e') ∧
    (decode (encodeR 0x13#8 rd rs1 rs2) = .ok (.or rd rs1 rs2) ∧
      ∃ e', exec (.or rd rs1 rs2) ⟨W, e, p, o⟩ = .next ⟨W, e', p, o⟩ ∧
        (∀ k < W.bits, (e'.getX rd).getLsbD k = ((e.getX rs1).getLsbD k || (e.getX rs2).getLsbD k)) ∧
        Spec.onlyX rd e e') ∧
    (decode (encodeR 0x14#8 rd rs1 rs2) = .ok (.and rd rs1 rs2) ∧
      ∃ e', exec (.and rd rs1 rs2) ⟨W, e, p, o⟩ = .next ⟨W, e', p, o⟩ ∧
        (∀ k < W.bits, (e'.getX rd).getLsbD k = ((e.getX rs1).getLsbD k && (e.getX rs2).getLsbD k)) ∧
        Spec.onlyX rd e e')

/-- R117 and R118: SHL and SHR by the Word in X[rs2]. -/
def Obligations.ShiftCommandsShiftByWord : Prop :=
  ∀ (W : Width) (e : Engine W) (p : List (HostOp W)) (o : List (Bus W)) (rd rs1 rs2 : Reg),
    e.fault = false →
    (decode (encodeR 0x15#8 rd rs1 rs2) = .ok (.shl rd rs1 rs2) ∧
      ∃ e', exec (.shl rd rs1 rs2) ⟨W, e, p, o⟩ = .next ⟨W, e', p, o⟩ ∧
        (e'.getX rd).toNat =
          (e.getX rs1).toNat * 2 ^ ((e.getX rs2).toNat % W.bits) % 2 ^ W.bits ∧
        Spec.onlyX rd e e') ∧
    (decode (encodeR 0x16#8 rd rs1 rs2) = .ok (.shr rd rs1 rs2) ∧
      ∃ e', exec (.shr rd rs1 rs2) ⟨W, e, p, o⟩ = .next ⟨W, e', p, o⟩ ∧
        (e'.getX rd).toNat = (e.getX rs1).toNat / 2 ^ ((e.getX rs2).toNat % W.bits) ∧
        Spec.onlyX rd e e')

/-- R119 and R120: SHLI and SHRI by imm16. -/
def Obligations.ImmediateShiftsShiftByImm16 : Prop :=
  ∀ (W : Width) (e : Engine W) (p : List (HostOp W)) (o : List (Bus W)) (rd rs1 : Reg) (n : Nat),
    n < 2 ^ 16 → e.fault = false →
    (decode (encodeI 0x25#8 rd rs1 n) = .ok (.shli rd rs1 n) ∧
      ∃ e', exec (.shli rd rs1 n) ⟨W, e, p, o⟩ = .next ⟨W, e', p, o⟩ ∧
        (e'.getX rd).toNat = (e.getX rs1).toNat * 2 ^ (n % W.bits) % 2 ^ W.bits ∧
        Spec.onlyX rd e e') ∧
    (decode (encodeI 0x26#8 rd rs1 n) = .ok (.shri rd rs1 n) ∧
      ∃ e', exec (.shri rd rs1 n) ⟨W, e, p, o⟩ = .next ⟨W, e', p, o⟩ ∧
        (e'.getX rd).toNat = (e.getX rs1).toNat / 2 ^ (n % W.bits) ∧
        Spec.onlyX rd e e')

/-- R121 and R122: LDI and LDB; a word of LDB with bits 15:8 not 0 is illegal. -/
def Obligations.LoadCommandsWriteImmediate : Prop :=
  ∀ (W : Width) (e : Engine W) (p : List (HostOp W)) (o : List (Bus W)) (rd : Reg) (n : Nat),
    e.fault = false →
    (n < 2 ^ 16 →
      decode (encodeL16 0x20#8 rd n) = .ok (.ldi rd n) ∧
      ∃ e', exec (.ldi rd n) ⟨W, e, p, o⟩ = .next ⟨W, e', p, o⟩ ∧
        (e'.getX rd).toNat = n % 2 ^ W.bits ∧ Spec.onlyX rd e e') ∧
    (n < 2 ^ 8 →
      decode (encodeL8 0x21#8 rd n) = .ok (.ldb rd n) ∧
      ∃ e', exec (.ldb rd n) ⟨W, e, p, o⟩ = .next ⟨W, e', p, o⟩ ∧
        (e'.getX rd).toNat = n ∧ Spec.onlyX rd e e') ∧
    (∀ z : BitVec 8, z ≠ 0 →
      decode ((0x21#8 ++ rd.bits ++ 0#6 ++ z ++ BitVec.ofNat 8 n : BitVec 32)) =
        .error .nonzeroReserved)

/-- R133, R134, R135 and R136: the four rotate commands, bit by bit. -/
def Obligations.RotateCommandsRotate : Prop :=
  ∀ (W : Width) (e : Engine W) (p : List (HostOp W)) (o : List (Bus W)) (rd rs1 rs2 : Reg) (n : Nat),
    n < 2 ^ 16 → e.fault = false →
    (decode (encodeR 0x17#8 rd rs1 rs2) = .ok (.rotl rd rs1 rs2) ∧
      ∃ e', exec (.rotl rd rs1 rs2) ⟨W, e, p, o⟩ = .next ⟨W, e', p, o⟩ ∧
        (∀ k < W.bits,
          (e'.getX rd).getLsbD ((k + (e.getX rs2).toNat) % W.bits) = (e.getX rs1).getLsbD k) ∧
        Spec.onlyX rd e e') ∧
    (decode (encodeR 0x18#8 rd rs1 rs2) = .ok (.rotr rd rs1 rs2) ∧
      ∃ e', exec (.rotr rd rs1 rs2) ⟨W, e, p, o⟩ = .next ⟨W, e', p, o⟩ ∧
        (∀ k < W.bits,
          (e'.getX rd).getLsbD k = (e.getX rs1).getLsbD ((k + (e.getX rs2).toNat) % W.bits)) ∧
        Spec.onlyX rd e e') ∧
    (decode (encodeI 0x27#8 rd rs1 n) = .ok (.rotli rd rs1 n) ∧
      ∃ e', exec (.rotli rd rs1 n) ⟨W, e, p, o⟩ = .next ⟨W, e', p, o⟩ ∧
        (∀ k < W.bits, (e'.getX rd).getLsbD ((k + n) % W.bits) = (e.getX rs1).getLsbD k) ∧
        Spec.onlyX rd e e') ∧
    (decode (encodeI 0x28#8 rd rs1 n) = .ok (.rotri rd rs1 n) ∧
      ∃ e', exec (.rotri rd rs1 n) ⟨W, e, p, o⟩ = .next ⟨W, e', p, o⟩ ∧
        (∀ k < W.bits, (e'.getX rd).getLsbD k = (e.getX rs1).getLsbD ((k + n) % W.bits)) ∧
        Spec.onlyX rd e e')

/-- R111: every word and rotate command always completes, what it writes to X[rd] is a function of the
register values before it, and it writes nothing else and raises no fault. -/
def Obligations.WordCommandsWriteOnlyTheirDestination : Prop :=
  ∀ (W : Width) (i : Instr) (rd : Reg), Spec.destination i = some rd →
    ∃ v : (Reg → Word W) → Word W,
      ∀ (e : Engine W) (p : List (HostOp W)) (o : List (Bus W)), e.fault = false →
        ∃ e', exec i ⟨W, e, p, o⟩ = .next ⟨W, e', p, o⟩ ∧ e'.getX rd = v e.getX ∧ Spec.onlyX rd e e'

/-! ## The key schedule (42_key_schedule.md) -/

/-- R5, R8, R9, R142 and R143: the sizes. -/
def Obligations.InstanceAndScheduleSizes : Prop :=
  (∀ W : Width, W.bits = 8 * W.bytes ∧ W.dw = max 32 W.bits) ∧
  (∀ n W, Width.ofBytes n = some W ↔ W.bytes = n) ∧
  (∀ n, Width.ofBytes n = none ↔ n ≠ 1 ∧ n ≠ 2 ∧ n ≠ 4 ∧ n ≠ 8) ∧
  Config.tmax = 511 ∧ Config.tmax = 2 * Config.rmax + 1 ∧
  Config.cmax .w8 = 255 ∧ Config.cmax .w16 = 128 ∧ Config.cmax .w32 = 64 ∧ Config.cmax .w64 = 32 ∧
  (∀ r, subkeyCount r = 2 * r + 1) ∧
  (∀ W b, Config.keyWords W b = max 1 ((b + W.bytes - 1) / W.bytes))

/-- R145 and R57: after packing, byte lane q of L[m] is key byte m*u + q, and 0 beyond the key. -/
def Obligations.PackedKeyIsLittleEndian : Prop :=
  ∀ (W : Width) (b : Nat) (key : Vector Byte b) (m q : Nat) (hm : m < Config.keyWords W b),
    q < W.bytes →
    ((packKey key : Vector (Word W) (Config.keyWords W b))[m]).extractLsb' (8 * q) 8 =
      if h : m * W.bytes + q < b then key[m * W.bytes + q] else 0#8

/-- R146: the fill starts at PW, each next word is the previous plus QW, and word k is PW + k * QW. -/
def Obligations.FillIsAnArithmeticProgression : Prop :=
  ∀ (W : Width) (pw qw : Word W) (t : Nat),
    (∀ h : 0 < t, (fillSchedule pw qw t)[0] = pw) ∧
    (∀ k (h : k + 1 < t),
      (fillSchedule pw qw t)[k + 1] = wordAdd ((fillSchedule pw qw t)[k]'(Nat.lt_of_succ_lt h)) qw) ∧
    (∀ k (h : k < t), ((fillSchedule pw qw t)[k]).toNat = (pw.toNat + k * qw.toNat) % 2 ^ W.bits)

/-- R140, R144, R146 to R151: with every key byte present KEYEXP completes with the schedule that the
pseudocode gives, S beyond t is as before, and nothing else changes. -/
def Obligations.KeyexpFollowsItsPseudocode : Prop :=
  decode 0x01000000#32 = .ok .keyexp ∧
  ∀ (W : Width) (e : Engine W) (p : List (HostOp W)) (o : List (Bus W)) (K : Nat → Byte),
    e.fault = false → (∀ k < e.klen.toNat, Memory.read e.key k = some (K k)) →
    ∃ P F A B I J S L,
      Spec.KeyexpTrace e.pw e.qw e.klen.toNat e.rounds.toNat K P F A B I J S L ∧
      ∃ e', exec .keyexp ⟨W, e, p, o⟩ = .next ⟨W, e', p, o⟩ ∧
        e'.slen.toNat = 2 * e.rounds.toNat + 1 ∧
        (∀ k < 2 * e.rounds.toNat + 1, Memory.read e'.sub k =
          some (S (3 * max (max 1 ((8 * e.klen.toNat + W.bits - 1) / W.bits))
            (2 * e.rounds.toNat + 1)) k)) ∧
        (∀ k, 2 * e.rounds.toNat + 1 ≤ k → Memory.read e'.sub k = Memory.read e.sub k) ∧
        Spec.onlySchedule e e'

/-- R141: KEYEXP with an absent key byte raises UninitRead with the lowest such index and changes nothing
else; with every byte of the key present, for every KLEN and ROUNDS, it raises nothing. -/
def Obligations.KeyexpReportsLowestAbsentKeyByte : Prop :=
  ∀ (W : Width) (e : Engine W) (p : List (HostOp W)) (o : List (Bus W)), e.fault = false →
    (∀ k, k < e.klen.toNat → Memory.read e.key k = none → (∀ j < k, Memory.read e.key j ≠ none) →
      exec .keyexp ⟨W, e, p, o⟩ =
        .next ⟨W, { e with fault := true, cause := 7#4, finfo := BitVec.ofNat W.dw (0x100 + k) }, p, o⟩) ∧
    (Spec.keyReady e →
      ∃ e', exec .keyexp ⟨W, e, p, o⟩ = .next ⟨W, e', p, o⟩ ∧ e'.fault = false)

/-- R152 (a) to (d): the mixing indices stay 0, so only S[0] and L[0] are mixed; what S[0] depends on; key
bytes beyond the first word reach the schedule only through c. -/
def Obligations.MixingTouchesOnlyTheFirstEntries : Prop :=
  ∀ (W : Width) (pw qw : Word W) (b r : Nat) (key : Vector Byte b),
    (∀ n, (Mix.run n (mixStart pw qw key r)).i.val = 0 ∧ (Mix.run n (mixStart pw qw key r)).j.val = 0) ∧
    (∀ n k (h : k < Config.keyWords W b), 1 ≤ k →
      (Mix.run n (mixStart pw qw key r)).l[k] = (packKey key : Vector (Word W) (Config.keyWords W b))[k]) ∧
    (∀ k (h : k < subkeyCount r), 1 ≤ k →
      ((expandKey pw qw key r)[k]).toNat = (pw.toNat + k * qw.toNat) % 2 ^ W.bits) ∧
    (∀ (qw' : Word W) (b' r' : Nat) (key' : Vector Byte b') (h0 : 0 < Config.keyWords W b)
        (h0' : 0 < Config.keyWords W b') (ht : 0 < subkeyCount r) (ht' : 0 < subkeyCount r'),
      (packKey key : Vector (Word W) (Config.keyWords W b))[0] =
        (packKey key' : Vector (Word W) (Config.keyWords W b'))[0] →
      mixCount W b r = mixCount W b' r' →
      (expandKey pw qw key r)[0] = (expandKey pw qw' key' r')[0]) ∧
    (∀ key' : Vector Byte b, (∀ k (h : k < b), k < W.bytes → key[k] = key'[k]) →
      expandKey pw qw key r = expandKey pw qw key' r)

/-- R155: the schedule depends on PW, QW, KLEN, K[0 .. KLEN-1] and ROUNDS only (and the width), not on S, X
or any earlier command. -/
def Obligations.KeyexpIsDeterministic : Prop :=
  ∀ (W : Width) (e f : Engine W) (p p' : List (HostOp W)) (o o' : List (Bus W)),
    e.fault = false → f.fault = false → e.pw = f.pw → e.qw = f.qw → e.klen = f.klen →
    e.rounds = f.rounds →
    Spec.keyReady e →
    (∀ k < e.klen.toNat, Memory.read e.key k = Memory.read f.key k) →
    ∃ e' f', exec .keyexp ⟨W, e, p, o⟩ = .next ⟨W, e', p, o⟩ ∧
      exec .keyexp ⟨W, f, p', o'⟩ = .next ⟨W, f', p', o'⟩ ∧
      e'.slen = f'.slen ∧ ∀ k < e'.slen.toNat, Memory.read e'.sub k = Memory.read f'.sub k

/-- R153 and R154: the empty key and zero rounds are legal; the empty key leaves L zero, zero rounds write
S[0] alone. Their example values name PW and QW. -/
def Obligations.EmptyKeyAndZeroRoundsAreLegal : Prop :=
  (∀ (W : Width) (e : Engine W) (p : List (HostOp W)) (o : List (Bus W)),
    e.fault = false → e.klen.toNat = 0 →
    (∀ (key : Vector Byte e.klen.toNat) (m : Nat) (h : m < Config.keyWords W e.klen.toNat),
      m = 0 ∧ (packKey key : Vector (Word W) (Config.keyWords W e.klen.toNat))[m] = 0) ∧
    ∃ e', exec .keyexp ⟨W, e, p, o⟩ = .next ⟨W, e', p, o⟩ ∧ e'.fault = false ∧
      e'.slen.toNat = 2 * e.rounds.toNat + 1 ∧
      ∀ k < 2 * e.rounds.toNat + 1, Memory.read e'.sub k ≠ none) ∧
  (∀ (W : Width) (e : Engine W) (p : List (HostOp W)) (o : List (Bus W)),
    e.fault = false → e.rounds.toNat = 0 → Spec.keyReady e →
    ∃ e', exec .keyexp ⟨W, e, p, o⟩ = .next ⟨W, e', p, o⟩ ∧ e'.fault = false ∧ e'.slen.toNat = 1 ∧
      Memory.read e'.sub 0 ≠ none ∧ ∀ k, 1 ≤ k → Memory.read e'.sub k = Memory.read e.sub k) ∧
  (∀ pw qw : Word .w8, pw.toNat = 0xB7 → qw.toNat = 0x9F →
    (expandKey pw qw (#v[] : Vector Byte 0) 2).toList.map BitVec.toNat = [0x14, 0x56, 0xF5, 0x94, 0x33] ∧
    (expandKey pw qw (#v[0xAA#8] : Vector Byte 1) 0).toList.map BitVec.toNat = [0x5F])

/-- 95_test_vectors.md V20, V24, V25 and V26, each naming the PW and QW it takes. -/
def Obligations.ScheduleVectorsOfFourWidths : Prop :=
  (∀ pw qw : Word .w8, pw.toNat = 0xB7 → qw.toNat = 0x9F →
    (expandKey pw qw (Vector.replicate 16 0#8) 10).toList.map BitVec.toNat =
      [0x02, 0x56, 0xF5, 0x94, 0x33, 0xD2, 0x71, 0x10, 0xAF, 0x4E, 0xED, 0x8C, 0x2B, 0xCA, 0x69, 0x08,
        0xA7, 0x46, 0xE5, 0x84, 0x23]) ∧
  (∀ pw qw : Word .w32, pw.toNat = 0xB7E15163 → qw.toNat = 0x9E3779B9 →
    (expandKey pw qw #v[0x11#8, 0x22#8, 0x33#8, 0x44#8, 0x55#8] 1).toList.map BitVec.toNat =
      [0x3DF5EFDF, 0x5618CB1C, 0xF45044D5]) ∧
  (∀ pw qw : Word .w16, pw.toNat = 0xB7E1 → qw.toNat = 0x9E37 →
    (expandKey pw qw #v[0xDE#8, 0xAD#8, 0xBE#8] 2).toList.map BitVec.toNat =
      [0x3EE1, 0x5618, 0xF44F, 0x9286, 0x30BD]) ∧
  (∀ pw qw : Word .w64, pw.toNat = 0xB7E151628AED2A6B → qw.toNat = 0x9E3779B97F4A7C15 →
    (expandKey pw qw #v[1#8, 2#8, 3#8, 4#8, 5#8, 6#8, 7#8, 8#8, 9#8] 1).toList.map BitVec.toNat =
      [0xE502457800C45AA3, 0x5618CB1C0A37A680, 0xF45044D589822295])

/-! ## The cipher (43_cipher.md) -/

/-- R161: the three preconditions of ENC and DEC in their order, each fault with its FINFO and no other
change; when none applies the command completes without a fault. -/
def Obligations.CipherPreconditionsInOrder : Prop :=
  ∀ (W : Width) (e : Engine W) (p : List (HostOp W)) (o : List (Bus W)) (i : Instr) (cw : Nat),
    (i = .enc ∧ cw = 0x02000000) ∨ (i = .dec ∧ cw = 0x03000000) → e.fault = false →
    (e.rounds.toNat = 0 →
      exec i ⟨W, e, p, o⟩ =
        .next ⟨W, { e with fault := true, cause := 5#4, finfo := BitVec.ofNat W.dw cw }, p, o⟩) ∧
    (e.rounds.toNat ≠ 0 → e.slen.toNat ≠ 2 * e.rounds.toNat + 1 →
      exec i ⟨W, e, p, o⟩ =
        .next ⟨W, { e with fault := true, cause := 6#4, finfo := BitVec.ofNat W.dw e.slen.toNat }, p, o⟩) ∧
    (e.rounds.toNat ≠ 0 → e.slen.toNat = 2 * e.rounds.toNat + 1 →
      ∀ k < e.slen.toNat, Memory.read e.sub k = none → (∀ j < k, Memory.read e.sub j ≠ none) →
      exec i ⟨W, e, p, o⟩ =
        .next ⟨W, { e with fault := true, cause := 7#4, finfo := BitVec.ofNat W.dw (0x200 + k) }, p, o⟩) ∧
    (Spec.cipherReady e →
      ∃ a b, exec i ⟨W, e, p, o⟩ = .next ⟨W, { e with x0 := a, x1 := b }, p, o⟩)

/-- R162, R163 and R164: ENC is the input additions followed by rounds 1 .. r-1, the second line of a round
using the new A; only X[0] and X[1] are written. -/
def Obligations.EncFollowsItsPseudocode : Prop :=
  decode 0x02000000#32 = .ok .enc ∧
  ∀ (W : Width) (e : Engine W) (p : List (HostOp W)) (o : List (Bus W)) (S : Nat → Word W),
    e.fault = false → e.rounds.toNat ≠ 0 → e.slen.toNat = 2 * e.rounds.toNat + 1 →
    (∀ k < 2 * e.rounds.toNat + 1, Memory.read e.sub k = some (S k)) →
    ∃ A B : Nat → Word W,
      A 0 = wordAdd e.x0 (S 0) ∧ B 0 = wordAdd e.x1 (S 1) ∧
      (∀ i, 1 ≤ i → i ≤ e.rounds.toNat - 1 →
        A i = wordAdd (rotl (wordXor (A (i - 1)) (B (i - 1))) (B (i - 1)).toNat) (S (2 * i)) ∧
        B i = wordAdd (rotl (wordXor (B (i - 1)) (A i)) (A i).toNat) (S (2 * i + 1))) ∧
      exec .enc ⟨W, e, p, o⟩ =
        .next ⟨W, { e with x0 := A (e.rounds.toNat - 1), x1 := B (e.rounds.toNat - 1) }, p, o⟩

/-- R166 and R163: DEC walks rounds r-1 .. 1 with the corrected lines, then the output subtractions; A i and
B i are the registers before round i is undone. -/
def Obligations.DecFollowsItsPseudocode : Prop :=
  decode 0x03000000#32 = .ok .dec ∧
  ∀ (W : Width) (e : Engine W) (p : List (HostOp W)) (o : List (Bus W)) (S : Nat → Word W),
    e.fault = false → e.rounds.toNat ≠ 0 → e.slen.toNat = 2 * e.rounds.toNat + 1 →
    (∀ k < 2 * e.rounds.toNat + 1, Memory.read e.sub k = some (S k)) →
    ∃ A B : Nat → Word W,
      A (e.rounds.toNat - 1) = e.x0 ∧ B (e.rounds.toNat - 1) = e.x1 ∧
      (∀ i, 1 ≤ i → i ≤ e.rounds.toNat - 1 →
        B (i - 1) = wordXor (rotr (wordSub (B i) (S (2 * i + 1))) (A i).toNat) (A i) ∧
        A (i - 1) = wordXor (rotr (wordSub (A i) (S (2 * i))) (B (i - 1)).toNat) (B (i - 1))) ∧
      exec .dec ⟨W, e, p, o⟩ =
        .next ⟨W, { e with x0 := wordSub (A 0) (S 0), x1 := wordSub (B 0) (S 1) }, p, o⟩

/-- The inverse shown in R167, for one round in both orders: each round transform undoes the other. -/
def Obligations.RoundsAreInverse : Prop :=
  ∀ (W : Width) (s s' a b : Word W),
    decRound s s' (encRound s s' (a, b)) = (a, b) ∧ encRound s s' (decRound s s' (a, b)) = (a, b)

/-- R168: ENC then DEC, and DEC then ENC, restore the block, for every schedule, round count and block. -/
def Obligations.DecryptUndoesEncrypt : Prop :=
  ∀ (W : Width) (e : Engine W) (p : List (HostOp W)) (o : List (Bus W)),
    e.fault = false → Spec.cipherReady e →
    (∃ e', exec .enc ⟨W, e, p, o⟩ = .next ⟨W, e', p, o⟩ ∧
      exec .dec ⟨W, e', p, o⟩ = .next ⟨W, e, p, o⟩) ∧
    (∃ e', exec .dec ⟨W, e, p, o⟩ = .next ⟨W, e', p, o⟩ ∧
      exec .enc ⟨W, e', p, o⟩ = .next ⟨W, e, p, o⟩)

/-- R173 and R170: ENC and DEC change nothing but X[0] and X[1], and the block they leave is a function of
X[0], X[1], S[0 .. 2r-1], r and w only; S[2r] reaches no ciphertext. -/
def Obligations.CipherChangesOnlyTheBlock : Prop :=
  ∀ (W : Width) (e f : Engine W) (p p' : List (HostOp W)) (o o' : List (Bus W)) (i : Instr),
    i = .enc ∨ i = .dec → e.fault = false → f.fault = false → Spec.cipherReady e → Spec.cipherReady f →
    e.x0 = f.x0 → e.x1 = f.x1 → e.rounds = f.rounds →
    (∀ k, k < 2 * e.rounds.toNat → Memory.read e.sub k = Memory.read f.sub k) →
    ∃ a b, exec i ⟨W, e, p, o⟩ = .next ⟨W, { e with x0 := a, x1 := b }, p, o⟩ ∧
      exec i ⟨W, f, p', o'⟩ = .next ⟨W, { f with x0 := a, x1 := b }, p', o'⟩

/-- R203 (1): after KEYEXP with the current ROUNDS, ROUNDS at least 1, both ENC and DEC run without a
fault. -/
def Obligations.CipherRunsAfterKeyexp : Prop :=
  ∀ (W : Width) (e : Engine W) (p : List (HostOp W)) (o : List (Bus W)) (i : Instr),
    i = .enc ∨ i = .dec → e.fault = false → Spec.keyReady e → e.rounds.toNat ≠ 0 →
    ∃ e', exec .keyexp ⟨W, e, p, o⟩ = .next ⟨W, e', p, o⟩ ∧
      ∃ a b, exec i ⟨W, e', p, o⟩ = .next ⟨W, { e' with x0 := a, x1 := b }, p, o⟩

/-- 95_test_vectors.md V30, V31, V32, V33 and V35: ciphertexts of concrete schedules. -/
def Obligations.CipherVectors : Prop :=
  encrypt (r := 10) (by decide)
      #v[0x02#8, 0x56#8, 0xF5#8, 0x94#8, 0x33#8, 0xD2#8, 0x71#8, 0x10#8, 0xAF#8, 0x4E#8, 0xED#8, 0x8C#8,
        0x2B#8, 0xCA#8, 0x69#8, 0x08#8, 0xA7#8, 0x46#8, 0xE5#8, 0x84#8, 0x23#8]
      (5#8, 44#8) = (0x85#8, 0xBD#8) ∧
  decrypt (r := 10) (by decide)
      #v[0x02#8, 0x56#8, 0xF5#8, 0x94#8, 0x33#8, 0xD2#8, 0x71#8, 0x10#8, 0xAF#8, 0x4E#8, 0xED#8, 0x8C#8,
        0x2B#8, 0xCA#8, 0x69#8, 0x08#8, 0xA7#8, 0x46#8, 0xE5#8, 0x84#8, 0x23#8]
      (0x85#8, 0xBD#8) = (5#8, 44#8) ∧
  encrypt (r := 3) (by decide) #v[1#8, 2#8, 3#8, 4#8, 5#8, 6#8, 7#8] (0x10#8, 0x20#8) = (0xD9#8, 0x4C#8) ∧
  encrypt (r := 3) (by decide) #v[1#8, 2#8, 3#8, 4#8, 5#8, 6#8, 7#8] (0xFF#8, 0xFE#8) = (0xF6#8, 0xC0#8) ∧
  encrypt (r := 1) (by decide) #v[0x3DF5EFDF#32, 0x5618CB1C#32, 0xF45044D5#32]
      (0xFFFFFFFF#32, 0x00000001#32) = (0x3DF5EFDE#32, 0x5618CB1D#32) ∧
  encrypt (r := 2) (by decide) #v[0x3EE1#16, 0x5618#16, 0xF44F#16, 0x9286#16, 0x30BD#16]
      (0x1234#16, 0xABCD#16) = (0x1259#16, 0x0AAD#16)

/-- 10_state.md R38 (a) and (b), R21, R29 and R30: what no command changes. -/
def Obligations.CommandsKeepKeyAndRoundCount : Prop :=
  ∀ (W : Width) (e e' : Engine W) (p : List (HostOp W)) (o : List (Bus W)) (i : Instr),
    exec i ⟨W, e, p, o⟩ = .next ⟨W, e', p, o⟩ →
    (∀ k, Memory.read e'.key k = Memory.read e.key k) ∧ e'.klen = e.klen ∧ e'.rounds = e.rounds ∧
    e'.pw = e.pw ∧ e'.qw = e.qw ∧
    (i ≠ .keyexp → (∀ k, Memory.read e'.sub k = Memory.read e.sub k) ∧ e'.slen = e.slen) ∧
    (i = .keyexp → ∀ r, e'.getX r = e.getX r) ∧
    (i = .enc ∨ i = .dec → e'.x2 = e.x2 ∧ e'.x3 = e.x3)

/-! ## The host port (20_memory.md) -/

/-- R52: a host read, case by case, whether or not a fault is already recorded. -/
def Obligations.HostReadCaseByCase : Prop :=
  ∀ (W : Width) (e : Engine W) (p : List (HostOp W)) (o : List (Bus W)),
    (∀ a, Spec.unmapped a → step ⟨W, e, .read a :: p, o⟩ =
      .next ⟨W, Spec.recordFault e 2#4 a.toNat, p, o ++ [0]⟩) ∧
    step ⟨W, e, .read 0x000#10 :: p, o⟩ = .next ⟨W, Spec.recordFault e 3#4 0, p, o ++ [0]⟩ ∧
    (∀ k < 255, Memory.read e.key k = none → step ⟨W, e, .read (BitVec.ofNat 10 (0x100 + k)) :: p, o⟩ =
      .next ⟨W, Spec.recordFault e 7#4 (0x100 + k), p, o ++ [0]⟩) ∧
    (∀ k < 511, Memory.read e.sub k = none → step ⟨W, e, .read (BitVec.ofNat 10 (0x200 + k)) :: p, o⟩ =
      .next ⟨W, Spec.recordFault e 7#4 (0x200 + k), p, o ++ [0]⟩) ∧
    (∀ k < 255, ∀ v, Memory.read e.key k = some v →
      step ⟨W, e, .read (BitVec.ofNat 10 (0x100 + k)) :: p, o⟩ =
        .next ⟨W, e, p, o ++ [BitVec.ofNat W.dw v.toNat]⟩) ∧
    (∀ k < 511, ∀ v, Memory.read e.sub k = some v →
      step ⟨W, e, .read (BitVec.ofNat 10 (0x200 + k)) :: p, o⟩ =
        .next ⟨W, e, p, o ++ [BitVec.ofNat W.dw v.toNat]⟩) ∧
    step ⟨W, e, .read 0x001#10 :: p, o⟩ = .next ⟨W, e, p, o ++ [e.statusWord]⟩ ∧
    step ⟨W, e, .read 0x002#10 :: p, o⟩ = .next ⟨W, e, p, o ++ [e.finfo]⟩ ∧
    step ⟨W, e, .read 0x003#10 :: p, o⟩ = .next ⟨W, e, p, o ++ [configWord W]⟩ ∧
    step ⟨W, e, .read 0x004#10 :: p, o⟩ = .next ⟨W, e, p, o ++ [BitVec.ofNat W.dw e.rounds.toNat]⟩ ∧
    step ⟨W, e, .read 0x005#10 :: p, o⟩ = .next ⟨W, e, p, o ++ [BitVec.ofNat W.dw e.klen.toNat]⟩ ∧
    step ⟨W, e, .read 0x006#10 :: p, o⟩ = .next ⟨W, e, p, o ++ [BitVec.ofNat W.dw e.slen.toNat]⟩ ∧
    step ⟨W, e, .read 0x008#10 :: p, o⟩ = .next ⟨W, e, p, o ++ [BitVec.ofNat W.dw e.pw.toNat]⟩ ∧
    step ⟨W, e, .read 0x009#10 :: p, o⟩ = .next ⟨W, e, p, o ++ [BitVec.ofNat W.dw e.qw.toNat]⟩ ∧
    step ⟨W, e, .read 0x010#10 :: p, o⟩ = .next ⟨W, e, p, o ++ [BitVec.ofNat W.dw e.x0.toNat]⟩ ∧
    step ⟨W, e, .read 0x011#10 :: p, o⟩ = .next ⟨W, e, p, o ++ [BitVec.ofNat W.dw e.x1.toNat]⟩ ∧
    step ⟨W, e, .read 0x012#10 :: p, o⟩ = .next ⟨W, e, p, o ++ [BitVec.ofNat W.dw e.x2.toNat]⟩ ∧
    step ⟨W, e, .read 0x013#10 :: p, o⟩ = .next ⟨W, e, p, o ++ [BitVec.ofNat W.dw e.x3.toNat]⟩

/-- R53, R58 and R189: a host write, the first case that applies. -/
def Obligations.HostWriteCaseByCase : Prop :=
  ∀ (W : Width) (e : Engine W) (p : List (HostOp W)) (o : List (Bus W)) (v : Bus W),
    (e.fault = true → ∀ a, step ⟨W, e, .write a v :: p, o⟩ = .next ⟨W, e, p, o⟩) ∧
    (e.fault = false →
      (∀ a, Spec.unmapped a → step ⟨W, e, .write a v :: p, o⟩ =
        .next ⟨W, Spec.recordFault e 2#4 a.toNat, p, o⟩) ∧
      (∀ a : BitVec 10, a = 0x001#10 ∨ a = 0x002#10 ∨ a = 0x003#10 ∨ a = 0x008#10 ∨ a = 0x009#10 →
        step ⟨W, e, .write a v :: p, o⟩ = .next ⟨W, Spec.recordFault e 3#4 a.toNat, p, o⟩) ∧
      (∀ (a : BitVec 10) (width : Nat),
        (a = 0x000#10 ∧ width = 32) ∨ (a = 0x004#10 ∧ width = 8) ∨ (a = 0x005#10 ∧ width = 8) ∨
          (a = 0x006#10 ∧ width = 9) ∨ (0x010 ≤ a.toNat ∧ a.toNat ≤ 0x013 ∧ width = W.bits) ∨
          (0x100 ≤ a.toNat ∧ a.toNat ≤ 0x1FE ∧ width = 8) ∨
          (0x200 ≤ a.toNat ∧ a.toNat ≤ 0x3FE ∧ width = W.bits) →
        2 ^ width ≤ v.toNat →
        step ⟨W, e, .write a v :: p, o⟩ = .next ⟨W, Spec.recordFault e 4#4 a.toNat, p, o⟩) ∧
      (v.toNat < 2 ^ 32 →
        (∀ r, decode (BitVec.ofNat 32 v.toNat) = .error r → step ⟨W, e, .write 0x000#10 v :: p, o⟩ =
          .next ⟨W, Spec.recordFault e 1#4 v.toNat, p, o⟩) ∧
        (∀ i, decode (BitVec.ofNat 32 v.toNat) = .ok i →
          step ⟨W, e, .write 0x000#10 v :: p, o⟩ = exec i ⟨W, e, p, o⟩)) ∧
      (v.toNat < 2 ^ 8 →
        step ⟨W, e, .write 0x004#10 v :: p, o⟩ =
          .next ⟨W, { e with rounds := BitVec.ofNat 8 v.toNat }, p, o⟩ ∧
        step ⟨W, e, .write 0x005#10 v :: p, o⟩ =
          .next ⟨W, { e with klen := BitVec.ofNat 8 v.toNat }, p, o⟩ ∧
        ∀ k < 255, step ⟨W, e, .write (BitVec.ofNat 10 (0x100 + k)) v :: p, o⟩ =
          .next ⟨W, { e with key := Memory.write e.key k (BitVec.ofNat 8 v.toNat) }, p, o⟩) ∧
      (v.toNat < 2 ^ 9 →
        step ⟨W, e, .write 0x006#10 v :: p, o⟩ =
          .next ⟨W, { e with slen := BitVec.ofNat 9 v.toNat }, p, o⟩) ∧
      (v.toNat < 2 ^ W.bits →
        step ⟨W, e, .write 0x010#10 v :: p, o⟩ =
          .next ⟨W, { e with x0 := BitVec.ofNat W.bits v.toNat }, p, o⟩ ∧
        step ⟨W, e, .write 0x011#10 v :: p, o⟩ =
          .next ⟨W, { e with x1 := BitVec.ofNat W.bits v.toNat }, p, o⟩ ∧
        step ⟨W, e, .write 0x012#10 v :: p, o⟩ =
          .next ⟨W, { e with x2 := BitVec.ofNat W.bits v.toNat }, p, o⟩ ∧
        step ⟨W, e, .write 0x013#10 v :: p, o⟩ =
          .next ⟨W, { e with x3 := BitVec.ofNat W.bits v.toNat }, p, o⟩ ∧
        ∀ k < 511, step ⟨W, e, .write (BitVec.ofNat 10 (0x200 + k)) v :: p, o⟩ =
          .next ⟨W, { e with sub := Memory.write e.sub k (BitVec.ofNat W.bits v.toNat) }, p, o⟩))

/-- R36 and R12, the entries of K and S: a write makes one entry the value written and leaves every other
entry as it was. -/
def Obligations.MemoryReadsWhatWasWritten : Prop :=
  ∀ (W : Width) (m : Memory (Word W)) (n : List Host.Cell) (j k : Nat) (v : Word W) (b : Byte),
    Memory.read (Memory.write m k v) j = (if j = k then some v else Memory.read m j) ∧
    Memory.read (Memory.write n k b : Memory Byte) j = (if j = k then some b else Memory.read n j)

/-- R60 (a) and R55: a legal write of a register other than CMD is seen by the next read of it, and no read
of another address returns anything else than before. -/
def Obligations.HostReadsWhatItWrote : Prop :=
  ∀ (W : Width) (e : Engine W) (p : List (HostOp W)) (o : List (Bus W)) (r : HostReg) (v : Bus W),
    e.fault = false → r.readOnly = false → r ≠ .cmd → v.toNat < 2 ^ r.width W →
    ∃ e', step ⟨W, e, .write r.addr v :: p, o⟩ = .next ⟨W, e', p, o⟩ ∧
      step ⟨W, e', .read r.addr :: p, o⟩ = .next ⟨W, e', p, o ++ [v]⟩ ∧
      ∀ a, a ≠ r.addr → (e'.hostRead a).2 = (e.hostRead a).2

/-- R56: the address map: every mapped register has its address, one register at most has an address, and
the unmapped addresses are those R56 names. -/
def Obligations.AddressMapIsR56 : Prop :=
  (∀ r : HostReg, HostReg.ofAddr r.addr = some r) ∧
  (∀ a r, HostReg.ofAddr a = some r → r.addr = a) ∧
  (∀ a, HostReg.ofAddr a = none ↔ Spec.unmapped a)

/-- R26 and R28: the bits of STATUS and CONFIG. -/
def Obligations.StatusAndConfigLayout : Prop :=
  ∀ (W : Width) (e : Engine W),
    e.statusWord.getLsbD 0 = e.fault ∧ e.statusWord.getLsbD 1 = false ∧
    e.statusWord.extractLsb' 2 2 = 0#2 ∧ e.statusWord.extractLsb' 4 4 = e.cause ∧
    (∀ k, 8 ≤ k → e.statusWord.getLsbD k = false) ∧
    (configWord W).extractLsb' 0 4 = BitVec.ofNat 4 W.bytes ∧ (configWord W).extractLsb' 4 4 = 0#4 ∧
    (configWord W).extractLsb' 8 8 = 255#8 ∧ (configWord W).extractLsb' 16 8 = 255#8 ∧
    (∀ k, 24 ≤ k → (configWord W).getLsbD k = false)

/-! ## Faults and reset (60_exceptions.md, 70_reset_and_hazards.md) -/

/-- R190 and the codes of R181: fault entry sets FAULT, CAUSE and FINFO and changes nothing else. -/
def Obligations.FaultEntryRecordsTheFault : Prop :=
  (∀ (W : Width) (e : Engine W) (c : Cause) (info : BitVec 32), e.fault = false →
    e.raise c info =
      { e with fault := true, cause := c.code, finfo := BitVec.ofNat W.dw info.toNat }) ∧
  Cause.code .illegalCommand = 1#4 ∧ Cause.code .badAddress = 2#4 ∧ Cause.code .accessType = 3#4 ∧
  Cause.code .badValue = 4#4 ∧ Cause.code .roundsZero = 5#4 ∧ Cause.code .schedMismatch = 6#4 ∧
  Cause.code .uninitRead = 7#4

/-- R193: at the step that records a fault, the engine is as before but for FAULT, CAUSE and FINFO. -/
def Obligations.FaultsArePrecise : Prop :=
  ∀ (W : Width) (e e' : Engine W) (p p' : List (HostOp W)) (o o' : List (Bus W)),
    step ⟨W, e, p, o⟩ = .next ⟨W, e', p', o'⟩ → e.fault = false → e'.fault = true →
    e' = { e with fault := true, cause := e'.cause, finfo := e'.finfo }

/-- R191: while halted every host write leaves the engine as it is; a read does too, records nothing, and
returns what it would return were no fault recorded (0 where it would fault). STATUS alone reads otherwise:
it shows the fault. -/
def Obligations.HaltedEngineChangesNothing : Prop :=
  ∀ (W : Width) (e : Engine W) (p : List (HostOp W)) (o : List (Bus W)), e.fault = true →
    (∀ a v, step ⟨W, e, .write a v :: p, o⟩ = .next ⟨W, e, p, o⟩) ∧
    step ⟨W, e, .read 0x001#10 :: p, o⟩ = .next ⟨W, e, p, o ++ [e.statusWord]⟩ ∧
    (∀ a, a ≠ 0x001#10 → ∃ v f,
      step ⟨W, e, .read a :: p, o⟩ = .next ⟨W, e, p, o ++ [v]⟩ ∧
      step ⟨W, { e with fault := false }, .read a :: p, o⟩ = .next ⟨W, f, p, o ++ [v]⟩ ∧
      (f.fault = true → v = 0))

/-- R201 and R36: reset is the only operation that clears FAULT, and the only one that turns an entry of K
or S back into none; and reset does both. -/
def Obligations.OnlyResetClearsFaultsAndEntries : Prop :=
  ∀ (W : Width) (e : Engine W) (p : List (HostOp W)) (o : List (Bus W)),
    (∀ (op : HostOp W) (e' : Engine W) (o' : List (Bus W)),
      step ⟨W, e, op :: p, o⟩ = .next ⟨W, e', p, o'⟩ → op ≠ .reset →
      (e.fault = true → e'.fault = true ∧ e'.cause = e.cause ∧ e'.finfo = e.finfo) ∧
      (∀ k, Memory.read e.key k ≠ none → Memory.read e'.key k ≠ none) ∧
      (∀ k, Memory.read e.sub k ≠ none → Memory.read e'.sub k ≠ none)) ∧
    (∃ e', step ⟨W, e, .reset :: p, o⟩ = .next ⟨W, e', p, o⟩ ∧ e'.fault = false ∧
      ∀ k, Memory.read e'.key k = none ∧ Memory.read e'.sub k = none)

/-- R200 and R41: reset, in any state; the constants of the instance are unaffected. That the operations
still to come and the values already returned stay is the model's choice: log entry 3. -/
def Obligations.ResetClearsEverything : Prop :=
  ∀ (W : Width) (e : Engine W) (p : List (HostOp W)) (o : List (Bus W)),
    ∃ e', step ⟨W, e, .reset :: p, o⟩ = .next ⟨W, e', p, o⟩ ∧ (∀ r, e'.getX r = 0) ∧
      e'.rounds = 0 ∧ e'.klen = 0 ∧ e'.slen = 0 ∧ e'.fault = false ∧ e'.cause = 0 ∧ e'.finfo = 0 ∧
      (∀ k, Memory.read e'.key k = none) ∧ (∀ k, Memory.read e'.sub k = none) ∧
      e'.pw = e.pw ∧ e'.qw = e.qw ∧ e' = (State.resetOf W e.pw e.qw).engine

/-! ## The whole machine -/

/-- The invariant is kept by every step: CAUSE and FINFO as R26, R27 and R181 say, the memories within the
sizes of R33 and R34. Their canonical form (`Memory.wf`, rising indices) is the model's choice: log entry 9,
DESIGN CHOICE. -/
def Obligations.StepKeepsInvariant : Prop :=
  ∀ s s' : State, Safety.Inv s → step s = .next s' → Safety.Inv s'

/-- The invariant holds right after reset (R41), for every instance. The canonical form of the memories in it
is the model's choice: log entry 9, DESIGN CHOICE. -/
def Obligations.ResetHasInvariant : Prop :=
  (∀ (W : Width) (pw qw : Word W), Safety.Inv (State.resetOf W pw qw)) ∧ Safety.Inv State.reset

/-- R5 and R31: no step changes the instance: its width, PW and QW. -/
def Obligations.InstanceNeverChanges : Prop :=
  ∀ s s' : State, step s = .next s' →
    s'.width = s.width ∧ s'.engine.pw.toNat = s.engine.pw.toNat ∧ s'.engine.qw.toNat = s.engine.qw.toNat

/-- R19 and R60: every step answers a next state and performs the host operations one at a time in their
order; only a read returns a value. That a machine with no operation to come stays as it is, is the model's
reading of R23 (a): log entry 3. -/
def Obligations.HostOperationsInIssueOrder : Prop :=
  ∀ (W : Width) (e : Engine W) (o : List (Bus W)),
    step ⟨W, e, [], o⟩ = .next ⟨W, e, [], o⟩ ∧
    ∀ (op : HostOp W) (p : List (HostOp W)),
      ∃ e' o', step ⟨W, e, op :: p, o⟩ = .next ⟨W, e', p, o'⟩ ∧
        ((∀ a, op ≠ .read a) → o' = o) ∧ (∀ a, op = .read a → ∃ v, o' = o ++ [v])

/-- R70: when the word written to CMD decodes to an instruction, the step is exec of that instruction on the
state with the write taken from the list; and so for the word that withFetchWord places. -/
def Obligations.StepRunsTheDecodedInstruction : Prop :=
  (∀ (W : Width) (e : Engine W) (p : List (HostOp W)) (o : List (Bus W)) (cw : BitVec 32) (i : Instr),
    e.fault = false → decode cw = .ok i →
    step ⟨W, e, .write 0x000#10 (BitVec.ofNat W.dw cw.toNat) :: p, o⟩ = exec i ⟨W, e, p, o⟩) ∧
  (∀ (s : State) (w : Nat) (i : Instr), s.engine.fault = false → decodeTableWord 32 w = some i →
    step (s.withFetchWord 32 w) = exec i s)

/-! ## Encoding (30_encoding.md) -/

/-- Decode and encode agree: every well-formed command is read back with every operand. -/
def Obligations.DecodeReadsBackEncode : Prop :=
  ∀ i : Instr, i.wellFormed = true → decode (encode i) = .ok i

/-- A word the decoder accepts is the encoding of what it answers: no bit of a word is ignored. -/
def Obligations.DecodeIgnoresNoBit : Prop :=
  ∀ (cw : BitVec 32) (i : Instr), decode cw = .ok i → i.wellFormed = true ∧ encode i = cw

/-- R70 and R76: the decoder answers a command exactly when the word matches the row of that mnemonic, and
at most one row matches a word. -/
def Obligations.DecodeMatchesTheTable : Prop :=
  (∀ (cw : BitVec 32) (row : Row), row ∈ opcodeTable →
    (cw &&& row.mask = row.matchBits ↔ ∃ i, decode cw = .ok i ∧ i.mnemonic = row.mnemonic)) ∧
  (∀ (cw : BitVec 32) (row row' : Row), row ∈ opcodeTable → row' ∈ opcodeTable →
    cw &&& row.mask = row.matchBits → cw &&& row'.mask = row'.matchBits → row = row')

/-- R75: a word that matches no row raises IllegalCommand with the word as FINFO and changes nothing else;
every word with an unlisted opcode byte, every word with a listed one and a must-be-0 field that is not 0,
and the all-zero and all-ones words, are such words. -/
def Obligations.IllegalWordsRaiseIllegalCommand : Prop :=
  (∀ (W : Width) (e : Engine W) (p : List (HostOp W)) (o : List (Bus W)) (cw : BitVec 32),
    e.fault = false → (∀ row ∈ opcodeTable, cw &&& row.mask ≠ row.matchBits) →
    step ⟨W, e, .write 0x000#10 (BitVec.ofNat W.dw cw.toNat) :: p, o⟩ =
      .next ⟨W, { e with fault := true, cause := 1#4, finfo := BitVec.ofNat W.dw cw.toNat }, p, o⟩) ∧
  (∀ cw : BitVec 32,
    cw.toNat / 2 ^ 24 = 0x00 ∨ (0x04 ≤ cw.toNat / 2 ^ 24 ∧ cw.toNat / 2 ^ 24 ≤ 0x0F) ∨
      (0x19 ≤ cw.toNat / 2 ^ 24 ∧ cw.toNat / 2 ^ 24 ≤ 0x1F) ∨
      (0x22 ≤ cw.toNat / 2 ^ 24 ∧ cw.toNat / 2 ^ 24 ≤ 0x24) ∨ 0x29 ≤ cw.toNat / 2 ^ 24 →
    ∀ row ∈ opcodeTable, cw &&& row.mask ≠ row.matchBits) ∧
  (∀ (cw : BitVec 32) (listed : Row), listed ∈ opcodeTable →
    cw.extractLsb' 24 8 = listed.matchBits.extractLsb' 24 8 →
    (cw &&& listed.mask).extractLsb' 0 24 ≠ 0#24 →
    ∀ row ∈ opcodeTable, cw &&& row.mask ≠ row.matchBits) ∧
  (∀ row ∈ opcodeTable,
    0x00000000#32 &&& row.mask ≠ row.matchBits ∧ 0xFFFFFFFF#32 &&& row.mask ≠ row.matchBits)

/-- R76 and 95_test_vectors.md P2, P4: words written out bit by bit decode to the commands they stand for. -/
def Obligations.SampleWordsDecode : Prop :=
  decode 0b00000001000000000000000000000000#32 = .ok .keyexp ∧
  decode 0b00010000100001000000000000000000#32 = .ok (.add .x2 .x0 .x1) ∧
  decode 0b00010111111101000000000000000000#32 = .ok (.rotl .x3 .x3 .x1) ∧
  decode 0b00100111100000000000000000000011#32 = .ok (.rotli .x2 .x0 3) ∧
  decode 0b00100000110000000001001000110100#32 = .ok (.ldi .x3 0x1234) ∧
  decode 0b00100001010000000000000010101010#32 = .ok (.ldb .x1 0xAA)

/-- R86 and R87: an operand out of range is refused, and each pseudo-instruction expands as R87 says. That
SETKEY of more than 255 bytes has no expansion is the model's reading of 93_implementation_defined.md U18:
log entry 12, DEDUCED. -/
def Obligations.AssemblerExpandsPseudoInstructions : Prop :=
  (∀ i : Instr, assemble i = none ↔ i.wellFormed = false) ∧
  ∀ (W : Width) (xd xa : Reg) (a b : Word W) (r : Bus W) (bytes : List Byte),
    (Line.mov xd xa : Line W).expand = (Line.command (.or xd xa xa) : Line W).expand ∧
    (Line.clr xd : Line W).expand = (Line.command (.ldi xd 0) : Line W).expand ∧
    (Line.one xd : Line W).expand = (Line.command (.ldi xd 1) : Line W).expand ∧
    (Line.setblk a b).expand =
      some [.write 0x010#10 (BitVec.ofNat W.dw a.toNat), .write 0x011#10 (BitVec.ofNat W.dw b.toNat)] ∧
    (Line.encryptk r).expand =
      some [.write 0x004#10 r, .write 0x000#10 0x01000000, .write 0x000#10 0x02000000] ∧
    (Line.decryptk r).expand =
      some [.write 0x004#10 r, .write 0x000#10 0x01000000, .write 0x000#10 0x03000000] ∧
    (bytes.length ≤ 255 →
      (Line.setkey bytes : Line W).expand =
        some ((bytes.zipIdx.map (fun c =>
            (.write (BitVec.ofNat 10 (0x100 + c.2)) (BitVec.ofNat W.dw c.1.toNat) : HostOp W))) ++
          [.write 0x005#10 (BitVec.ofNat W.dw bytes.length)])) ∧
    (255 < bytes.length → (Line.setkey bytes : Line W).expand = none)
end

