-- ==== Sys2Proof/Laws/Memory.lean ====
section
/-! SUPPORT. The sparse memories: read after write, what a write leaves alone, what `gather` answers, and
that every operation keeps the canonical form. -/

namespace Sys2Proof.Machine

variable {α : Type}

@[simp] theorem Memory.read_nil (k : Nat) : Memory.read ([] : Memory α) k = none := rfl
@[simp] theorem Memory.writeFrom_nil (m : Memory α) (k : Nat) : Memory.writeFrom m k [] = m := rfl
@[simp] theorem Memory.writeFrom_cons (m : Memory α) (k : Nat) (v : α) (vs : List α) :
    Memory.writeFrom m k (v :: vs) = Memory.writeFrom (Memory.write m k v) (k + 1) vs := rfl

@[simp] theorem Memory.read_write_same (m : Memory α) (k : Nat) (v : α) :
    Memory.read (Memory.write m k v) k = some v := by
  induction m with
  | nil => simp [Memory.write, Memory.read]
  | cons c rest ih =>
    obtain ⟨a, u⟩ := c
    simp only [Memory.write]
    split
    · simp [Memory.read]
    · split
      · simp [Memory.read]
      · have h : ¬ a = k := by omega
        simp [Memory.read, h, ih]

theorem Memory.read_write_of_ne (m : Memory α) {j k : Nat} (h : j ≠ k) (v : α) :
    Memory.read (Memory.write m k v) j = Memory.read m j := by
  induction m with
  | nil => simp [Memory.write, Memory.read, Ne.symm h]
  | cons c rest ih =>
    obtain ⟨a, u⟩ := c
    simp only [Memory.write]
    split
    · simp [Memory.read, Ne.symm h]
    · split
      · rename_i hk
        subst hk
        simp [Memory.read, Ne.symm h]
      · simp only [Memory.read]
        split <;> simp [ih]

/-- What a block of consecutive writes does to one entry. -/
theorem Memory.read_writeFrom (m : Memory α) (k : Nat) (vs : List α) (j : Nat) :
    Memory.read (Memory.writeFrom m k vs) j =
      if k ≤ j ∧ j < k + vs.length then vs[j - k]? else Memory.read m j := by
  induction vs generalizing m k with
  | nil =>
    rw [if_neg (by simp)]
    simp
  | cons v vs ih =>
    rw [Memory.writeFrom_cons, ih]
    by_cases h1 : k + 1 ≤ j ∧ j < k + 1 + vs.length
    · rw [if_pos h1, if_pos (by simp only [List.length_cons]; omega)]
      obtain ⟨d, hd⟩ : ∃ d, j - k = d + 1 := ⟨j - k - 1, by omega⟩
      have : j - (k + 1) = d := by omega
      rw [this, hd, List.getElem?_cons_succ]
    · rw [if_neg h1]
      by_cases h2 : j = k
      · subst h2
        simp
      · rw [Memory.read_write_of_ne _ h2, if_neg (by simp only [List.length_cons]; omega)]

/-! ## gather -/

/-- `gather` succeeds exactly with the values of entries `0 .. n-1`. -/
theorem Memory.gather_eq_ok_iff (m : Memory α) (n : Nat) (vs : Vector α n) :
    Memory.gather m n = .ok vs ↔ ∀ k (h : k < n), Memory.read m k = some vs[k] := by
  induction n with
  | zero =>
    simp only [Memory.gather, Except.ok.injEq]
    constructor
    · intro _ k h
      omega
    · intro _
      exact Vector.ext (fun i h => absurd h (Nat.not_lt_zero i))
  | succ n ih =>
    simp only [Memory.gather]
    constructor
    · intro h k hk
      split at h
      · cases h
      · rename_i us hus
        split at h
        · cases h
        · rename_i v hv
          cases h
          by_cases hkn : k < n
          · rw [Vector.getElem_push_lt hkn]
            exact (ih us).1 hus k hkn
          · have : k = n := by omega
            subst this
            simp [hv]
    · intro h
      have hpop : Memory.gather m n = .ok vs.pop := by
        refine (ih vs.pop).2 (fun k hk => ?_)
        rw [h k (by omega)]
        simp
      rw [hpop]
      simp only [h n (Nat.lt_succ_self n)]
      congr 1
      refine Vector.ext (fun i hi => ?_)
      by_cases hin : i < n
      · rw [Vector.getElem_push_lt hin]
        simp
      · have : i = n := by omega
        subst this
        simp

/-- An index that `gather` reports is in range and holds no value. -/
theorem Memory.gather_error_absent {m : Memory α} {n k : Nat} (h : Memory.gather m n = .error k) :
    k < n ∧ Memory.read m k = none := by
  induction n with
  | zero => cases h
  | succ n ih =>
    simp only [Memory.gather] at h
    split at h
    · rename_i hk
      cases h
      exact ⟨Nat.lt_succ_of_lt (ih hk).1, (ih hk).2⟩
    · split at h
      · rename_i hn
        cases h
        exact ⟨Nat.lt_succ_self _, hn⟩
      · cases h

/-- Below an index that `gather` reports every entry holds a value. -/
theorem Memory.gather_error_lowest {m : Memory α} {n k : Nat} (h : Memory.gather m n = .error k)
    {j : Nat} (hj : j < k) : Memory.read m j ≠ none := by
  induction n with
  | zero => cases h
  | succ n ih =>
    simp only [Memory.gather] at h
    split at h
    · rename_i hk
      cases h
      exact ih hk
    · rename_i vs hvs
      split at h
      · cases h
        simp [(Memory.gather_eq_ok_iff m _ vs).1 hvs j hj]
      · cases h

/-- `gather` fails exactly with the lowest index that holds no value. -/
theorem Memory.gather_eq_error_iff (m : Memory α) (n k : Nat) :
    Memory.gather m n = .error k ↔
      k < n ∧ Memory.read m k = none ∧ ∀ j < k, Memory.read m j ≠ none := by
  constructor
  · intro h
    exact ⟨(Memory.gather_error_absent h).1, (Memory.gather_error_absent h).2,
      fun j hj => Memory.gather_error_lowest h hj⟩
  · intro ⟨hk, hnone, hlow⟩
    cases hg : Memory.gather m n with
    | ok vs => simp [(Memory.gather_eq_ok_iff m n vs).1 hg k hk] at hnone
    | error k' =>
      rcases Nat.lt_trichotomy k k' with h | h | h
      · exact absurd hnone (Memory.gather_error_lowest hg h)
      · rw [h]
      · exact absurd (Memory.gather_error_absent hg).2 (hlow k' h)

/-- `gather` depends only on the entries it reads. -/
theorem Memory.gather_congr {m m' : Memory α} {n : Nat}
    (h : ∀ k < n, Memory.read m k = Memory.read m' k) : Memory.gather m n = Memory.gather m' n := by
  induction n with
  | zero => rfl
  | succ n ih =>
    simp only [Memory.gather, ih (fun k hk => h k (Nat.lt_succ_of_lt hk)), h n (Nat.lt_succ_self n)]

/-! ## The canonical form -/

theorem Memory.above_of_le {lo lo' : Nat} (h : lo' ≤ lo) {m : Memory α} (hm : Memory.above lo m = true) :
    Memory.above lo' m = true := by
  simp only [Memory.above, List.all_eq_true, decide_eq_true_eq] at hm ⊢
  intro c hc
  have := hm c hc
  omega

/-- Where the indices of a written memory come from. -/
theorem Memory.mem_write {m : Memory α} {k : Nat} {v : α} {c : Nat × α} (h : c ∈ Memory.write m k v) :
    c = (k, v) ∨ c ∈ m := by
  induction m with
  | nil => simpa [Memory.write] using h
  | cons d rest ih =>
    obtain ⟨a, u⟩ := d
    simp only [Memory.write] at h
    split at h
    · simpa using h
    · split at h
      · rcases List.mem_cons.1 h with h | h
        · exact .inl h
        · exact .inr (List.mem_cons_of_mem _ h)
      · rcases List.mem_cons.1 h with h | h
        · exact .inr (by simp [h])
        · rcases ih h with h | h
          · exact .inl h
          · exact .inr (List.mem_cons_of_mem _ h)

theorem Memory.rising_write (m : Memory α) (k : Nat) (v : α) (h : Memory.rising m = true) :
    Memory.rising (Memory.write m k v) = true := by
  induction m with
  | nil => simp [Memory.write, Memory.rising, Memory.above]
  | cons c rest ih =>
    obtain ⟨a, u⟩ := c
    simp only [Memory.rising, Bool.and_eq_true] at h
    simp only [Memory.write]
    split
    · rename_i hka
      simp only [Memory.rising, Bool.and_eq_true]
      refine ⟨?_, h⟩
      have := Memory.above_of_le (Nat.le_of_lt hka) h.1
      simp only [Memory.above, List.all_cons, Bool.and_eq_true, decide_eq_true_eq] at this ⊢
      exact ⟨hka, this⟩
    · split
      · rename_i hk
        subst hk
        simp only [Memory.rising, Bool.and_eq_true]
        exact h
      · simp only [Memory.rising, Bool.and_eq_true]
        refine ⟨?_, ih h.2⟩
        have h1 := h.1
        simp only [Memory.above, List.all_eq_true, decide_eq_true_eq] at h1 ⊢
        intro c hc
        rcases Memory.mem_write hc with rfl | hc
        · show a < k
          omega
        · exact h1 c hc

/-- A write of an index in range keeps the canonical form. -/
theorem Memory.wf_write {size : Nat} {m : Memory α} (h : Memory.wf size m = true) {k : Nat} (hk : k < size)
    (v : α) : Memory.wf size (Memory.write m k v) = true := by
  simp only [Memory.wf, Bool.and_eq_true, List.all_eq_true, decide_eq_true_eq] at h ⊢
  refine ⟨Memory.rising_write m k v h.1, fun c hc => ?_⟩
  rcases Memory.mem_write hc with rfl | hc
  · exact hk
  · exact h.2 c hc

/-- A block of writes in range keeps the canonical form. -/
theorem Memory.wf_writeFrom {size : Nat} {m : Memory α} (h : Memory.wf size m = true) {k : Nat}
    {vs : List α} (hk : k + vs.length ≤ size) : Memory.wf size (Memory.writeFrom m k vs) = true := by
  induction vs generalizing m k with
  | nil => exact h
  | cons v vs ih =>
    simp only [List.length_cons] at hk
    exact ih (Memory.wf_write h (by omega) v) (by omega)

@[simp] theorem Memory.wf_nil (size : Nat) : Memory.wf size ([] : Memory α) = true := rfl

end Sys2Proof.Machine
end

