-- ==== Sys2Proof/Laws/PerInstr.lean ====
section
/-! SUPPORT. The family EncodesInItsRow: the word of every command has its row's mnemonic, match bits and
mask (30_encoding.md R76). -/

namespace Sys2Proof.Laws.EncodesInItsRow

/-- Some row of R76 has the command's mnemonic, and the command's word matches it. -/
def Statement (i : Instr) : Prop :=
  ∃ row ∈ opcodeTable, row.mnemonic = i.mnemonic ∧ encode i &&& row.mask = row.matchBits

theorem and_ones (x : BitVec 8) : x &&& 0xFF#8 = x := by
  have : (0xFF#8 : BitVec 8) = BitVec.allOnes 8 := by decide
  rw [this, BitVec.and_allOnes]

/-- Masking acts field by field. -/
theorem and_field {m n : Nat} {a c x : BitVec m} {b d y : BitVec n} (h1 : a &&& c = x) (h2 : b &&& d = y) :
    (a ++ b) &&& (c ++ d) = x ++ y := by
  rw [BitVec.and_append, h1, h2]

theorem encodeR_and_mask (op : BitVec 8) (rd rs1 rs2 : Reg) :
    encodeR op rd rs1 rs2 &&& 0xFF03FFFF#32 = op ++ 0#24 := by
  have h : (0xFF03FFFF#32 : BitVec 32) = (0xFF#8 ++ 0#2 ++ 0#2 ++ 0#2 ++ 0x3FFFF#18 : BitVec 32) := by decide
  have h0 : (op ++ 0#24 : BitVec 32) = (op ++ 0#2 ++ 0#2 ++ 0#2 ++ 0#18 : BitVec 32) := by
    revert op
    decide
  rw [h, h0, encodeR]
  exact and_field (and_field (and_field (and_field (and_ones op) BitVec.and_zero) BitVec.and_zero)
    BitVec.and_zero) BitVec.zero_and

theorem encodeI_and_mask (op : BitVec 8) (rd rs1 : Reg) (n : Nat) :
    encodeI op rd rs1 n &&& 0xFF0F0000#32 = op ++ 0#24 := by
  have h : (0xFF0F0000#32 : BitVec 32) = (0xFF#8 ++ 0#2 ++ 0#2 ++ 0xF#4 ++ 0#16 : BitVec 32) := by decide
  have h0 : (op ++ 0#24 : BitVec 32) = (op ++ 0#2 ++ 0#2 ++ 0#4 ++ 0#16 : BitVec 32) := by
    revert op
    decide
  rw [h, h0, encodeI]
  exact and_field (and_field (and_field (and_field (and_ones op) BitVec.and_zero) BitVec.and_zero)
    BitVec.zero_and) BitVec.and_zero

theorem encodeL16_and_mask (op : BitVec 8) (rd : Reg) (n : Nat) :
    encodeL16 op rd n &&& 0xFF3F0000#32 = op ++ 0#24 := by
  have h : (0xFF3F0000#32 : BitVec 32) = (0xFF#8 ++ 0#2 ++ 0x3F#6 ++ 0#16 : BitVec 32) := by decide
  have h0 : (op ++ 0#24 : BitVec 32) = (op ++ 0#2 ++ 0#6 ++ 0#16 : BitVec 32) := by
    revert op
    decide
  rw [h, h0, encodeL16]
  exact and_field (and_field (and_field (and_ones op) BitVec.and_zero) BitVec.zero_and) BitVec.and_zero

theorem encodeL8_and_mask (op : BitVec 8) (rd : Reg) (n : Nat) :
    encodeL8 op rd n &&& 0xFF3FFF00#32 = op ++ 0#24 := by
  have h : (0xFF3FFF00#32 : BitVec 32) = (0xFF#8 ++ 0#2 ++ 0x3FFF#14 ++ 0#8 : BitVec 32) := by decide
  have h0 : (op ++ 0#24 : BitVec 32) = (op ++ 0#2 ++ 0#14 ++ 0#8 : BitVec 32) := by
    revert op
    decide
  rw [h, h0, encodeL8]
  exact and_field (and_field (and_field (and_ones op) BitVec.and_zero) BitVec.zero_and) BitVec.and_zero

theorem keyexp : Statement .keyexp := ⟨_, .head _, by decide⟩
theorem enc : Statement .enc := ⟨_, .tail _ (.head _), by decide⟩
theorem dec : Statement .dec := ⟨_, .tail _ (.tail _ (.head _)), by decide⟩
theorem add (rd rs1 rs2 : Reg) : Statement (.add rd rs1 rs2) :=
  ⟨⟨"ADD", 0x10000000#32, 0xFF03FFFF#32⟩, by decide, rfl, encodeR_and_mask _ _ _ _⟩
theorem sub (rd rs1 rs2 : Reg) : Statement (.sub rd rs1 rs2) :=
  ⟨⟨"SUB", 0x11000000#32, 0xFF03FFFF#32⟩, by decide, rfl, encodeR_and_mask _ _ _ _⟩
theorem xor (rd rs1 rs2 : Reg) : Statement (.xor rd rs1 rs2) :=
  ⟨⟨"XOR", 0x12000000#32, 0xFF03FFFF#32⟩, by decide, rfl, encodeR_and_mask _ _ _ _⟩
theorem or (rd rs1 rs2 : Reg) : Statement (.or rd rs1 rs2) :=
  ⟨⟨"OR", 0x13000000#32, 0xFF03FFFF#32⟩, by decide, rfl, encodeR_and_mask _ _ _ _⟩
theorem and (rd rs1 rs2 : Reg) : Statement (.and rd rs1 rs2) :=
  ⟨⟨"AND", 0x14000000#32, 0xFF03FFFF#32⟩, by decide, rfl, encodeR_and_mask _ _ _ _⟩
theorem shl (rd rs1 rs2 : Reg) : Statement (.shl rd rs1 rs2) :=
  ⟨⟨"SHL", 0x15000000#32, 0xFF03FFFF#32⟩, by decide, rfl, encodeR_and_mask _ _ _ _⟩
theorem shr (rd rs1 rs2 : Reg) : Statement (.shr rd rs1 rs2) :=
  ⟨⟨"SHR", 0x16000000#32, 0xFF03FFFF#32⟩, by decide, rfl, encodeR_and_mask _ _ _ _⟩
theorem rotl (rd rs1 rs2 : Reg) : Statement (.rotl rd rs1 rs2) :=
  ⟨⟨"ROTL", 0x17000000#32, 0xFF03FFFF#32⟩, by decide, rfl, encodeR_and_mask _ _ _ _⟩
theorem rotr (rd rs1 rs2 : Reg) : Statement (.rotr rd rs1 rs2) :=
  ⟨⟨"ROTR", 0x18000000#32, 0xFF03FFFF#32⟩, by decide, rfl, encodeR_and_mask _ _ _ _⟩
theorem ldi (rd : Reg) (imm16 : Nat) : Statement (.ldi rd imm16) :=
  ⟨⟨"LDI", 0x20000000#32, 0xFF3F0000#32⟩, by decide, rfl, encodeL16_and_mask _ _ _⟩
theorem ldb (rd : Reg) (imm8 : Nat) : Statement (.ldb rd imm8) :=
  ⟨⟨"LDB", 0x21000000#32, 0xFF3FFF00#32⟩, by decide, rfl, encodeL8_and_mask _ _ _⟩
theorem shli (rd rs1 : Reg) (imm16 : Nat) : Statement (.shli rd rs1 imm16) :=
  ⟨⟨"SHLI", 0x25000000#32, 0xFF0F0000#32⟩, by decide, rfl, encodeI_and_mask _ _ _ _⟩
theorem shri (rd rs1 : Reg) (imm16 : Nat) : Statement (.shri rd rs1 imm16) :=
  ⟨⟨"SHRI", 0x26000000#32, 0xFF0F0000#32⟩, by decide, rfl, encodeI_and_mask _ _ _ _⟩
theorem rotli (rd rs1 : Reg) (imm16 : Nat) : Statement (.rotli rd rs1 imm16) :=
  ⟨⟨"ROTLI", 0x27000000#32, 0xFF0F0000#32⟩, by decide, rfl, encodeI_and_mask _ _ _ _⟩
theorem rotri (rd rs1 : Reg) (imm16 : Nat) : Statement (.rotri rd rs1 imm16) :=
  ⟨⟨"ROTRI", 0x28000000#32, 0xFF0F0000#32⟩, by decide, rfl, encodeI_and_mask _ _ _ _⟩

end Sys2Proof.Laws.EncodesInItsRow
end

