-- ==== Sys2Proof/Laws/State.lean ====
section
/-! SUPPORT. One lemma per field per update of the state, each true by rfl or by the cases of a register
name, so that no later proof unfolds a record update. -/

namespace Sys2Proof.Machine

variable {W : Width}

/-! ## withEngine -/

@[simp] theorem State.withEngine_mk (e e' : Engine W) (p : List (HostOp W)) (o : List (Bus W)) :
    State.withEngine ⟨W, e, p, o⟩ e' = ⟨W, e', p, o⟩ := rfl
@[simp] theorem State.withEngine_width (s : State) (e : Engine s.width) : (s.withEngine e).width = s.width :=
  rfl
@[simp] theorem State.withEngine_engine (s : State) (e : Engine s.width) : (s.withEngine e).engine = e := rfl
@[simp] theorem State.withEngine_pending (s : State) (e : Engine s.width) :
    (s.withEngine e).pending = s.pending := rfl
@[simp] theorem State.withEngine_returned (s : State) (e : Engine s.width) :
    (s.withEngine e).returned = s.returned := rfl

/-! ## getX and setX -/

@[simp] theorem Engine.getX_x0 (e : Engine W) : e.getX .x0 = e.x0 := rfl
@[simp] theorem Engine.getX_x1 (e : Engine W) : e.getX .x1 = e.x1 := rfl
@[simp] theorem Engine.getX_x2 (e : Engine W) : e.getX .x2 = e.x2 := rfl
@[simp] theorem Engine.getX_x3 (e : Engine W) : e.getX .x3 = e.x3 := rfl

@[simp] theorem Engine.getX_setX_same (e : Engine W) (r : Reg) (v : Word W) : (e.setX r v).getX r = v := by
  cases r <;> rfl
theorem Engine.getX_setX_of_ne (e : Engine W) {r r' : Reg} (h : r' ≠ r) (v : Word W) :
    (e.setX r v).getX r' = e.getX r' := by
  cases r <;> cases r' <;> first | rfl | exact absurd rfl h
@[simp] theorem Engine.setX_rounds (e : Engine W) (r : Reg) (v : Word W) :
    (e.setX r v).rounds = e.rounds := by cases r <;> rfl
@[simp] theorem Engine.setX_klen (e : Engine W) (r : Reg) (v : Word W) : (e.setX r v).klen = e.klen := by
  cases r <;> rfl
@[simp] theorem Engine.setX_slen (e : Engine W) (r : Reg) (v : Word W) : (e.setX r v).slen = e.slen := by
  cases r <;> rfl
@[simp] theorem Engine.setX_key (e : Engine W) (r : Reg) (v : Word W) : (e.setX r v).key = e.key := by
  cases r <;> rfl
@[simp] theorem Engine.setX_sub (e : Engine W) (r : Reg) (v : Word W) : (e.setX r v).sub = e.sub := by
  cases r <;> rfl
@[simp] theorem Engine.setX_fault (e : Engine W) (r : Reg) (v : Word W) : (e.setX r v).fault = e.fault := by
  cases r <;> rfl
@[simp] theorem Engine.setX_cause (e : Engine W) (r : Reg) (v : Word W) : (e.setX r v).cause = e.cause := by
  cases r <;> rfl
@[simp] theorem Engine.setX_finfo (e : Engine W) (r : Reg) (v : Word W) : (e.setX r v).finfo = e.finfo := by
  cases r <;> rfl
@[simp] theorem Engine.setX_pw (e : Engine W) (r : Reg) (v : Word W) : (e.setX r v).pw = e.pw := by
  cases r <;> rfl
@[simp] theorem Engine.setX_qw (e : Engine W) (r : Reg) (v : Word W) : (e.setX r v).qw = e.qw := by
  cases r <;> rfl

/-! ## raise -/

/-- Fault entry while no fault is recorded (60_exceptions.md R190). -/
theorem Engine.raise_of_running {e : Engine W} (h : e.fault = false) (c : Cause) (info : BitVec 32) :
    e.raise c info = { e with fault := true, cause := c.code, finfo := info.setWidth W.dw } := by
  simp [Engine.raise, h]
/-- Fault entry while a fault is recorded: the first fault is kept (60_exceptions.md R191). -/
theorem Engine.raise_of_halted {e : Engine W} (h : e.fault = true) (c : Cause) (info : BitVec 32) :
    e.raise c info = e := by
  simp [Engine.raise, h]
@[simp] theorem Engine.raise_fault (e : Engine W) (c : Cause) (info : BitVec 32) :
    (e.raise c info).fault = true := by
  unfold Engine.raise; split <;> simp_all
@[simp] theorem Engine.raise_x0 (e : Engine W) (c : Cause) (info : BitVec 32) :
    (e.raise c info).x0 = e.x0 := by unfold Engine.raise; split <;> rfl
@[simp] theorem Engine.raise_x1 (e : Engine W) (c : Cause) (info : BitVec 32) :
    (e.raise c info).x1 = e.x1 := by unfold Engine.raise; split <;> rfl
@[simp] theorem Engine.raise_x2 (e : Engine W) (c : Cause) (info : BitVec 32) :
    (e.raise c info).x2 = e.x2 := by unfold Engine.raise; split <;> rfl
@[simp] theorem Engine.raise_x3 (e : Engine W) (c : Cause) (info : BitVec 32) :
    (e.raise c info).x3 = e.x3 := by unfold Engine.raise; split <;> rfl
@[simp] theorem Engine.raise_rounds (e : Engine W) (c : Cause) (info : BitVec 32) :
    (e.raise c info).rounds = e.rounds := by unfold Engine.raise; split <;> rfl
@[simp] theorem Engine.raise_klen (e : Engine W) (c : Cause) (info : BitVec 32) :
    (e.raise c info).klen = e.klen := by unfold Engine.raise; split <;> rfl
@[simp] theorem Engine.raise_slen (e : Engine W) (c : Cause) (info : BitVec 32) :
    (e.raise c info).slen = e.slen := by unfold Engine.raise; split <;> rfl
@[simp] theorem Engine.raise_key (e : Engine W) (c : Cause) (info : BitVec 32) :
    (e.raise c info).key = e.key := by unfold Engine.raise; split <;> rfl
@[simp] theorem Engine.raise_sub (e : Engine W) (c : Cause) (info : BitVec 32) :
    (e.raise c info).sub = e.sub := by unfold Engine.raise; split <;> rfl
@[simp] theorem Engine.raise_pw (e : Engine W) (c : Cause) (info : BitVec 32) :
    (e.raise c info).pw = e.pw := by unfold Engine.raise; split <;> rfl
@[simp] theorem Engine.raise_qw (e : Engine W) (c : Cause) (info : BitVec 32) :
    (e.raise c info).qw = e.qw := by unfold Engine.raise; split <;> rfl
@[simp] theorem Engine.raiseAt_eq (e : Engine W) (c : Cause) (addr : BitVec 10) :
    e.raiseAt c addr = e.raise c (addr.setWidth 32) := rfl

/-! ## reset -/

@[simp] theorem Engine.doReset_eq (e : Engine W) : e.doReset = Engine.reset e.pw e.qw := rfl
@[simp] theorem Engine.reset_pw (p q : Word W) : (Engine.reset p q).pw = p := rfl
@[simp] theorem Engine.reset_qw (p q : Word W) : (Engine.reset p q).qw = q := rfl
@[simp] theorem Engine.reset_key (p q : Word W) : (Engine.reset p q).key = [] := rfl
@[simp] theorem Engine.reset_sub (p q : Word W) : (Engine.reset p q).sub = [] := rfl
@[simp] theorem Engine.reset_fault (p q : Word W) : (Engine.reset p q).fault = false := rfl
@[simp] theorem Engine.reset_cause (p q : Word W) : (Engine.reset p q).cause = 0 := rfl
@[simp] theorem Engine.reset_finfo (p q : Word W) : (Engine.reset p q).finfo = 0 := rfl

/-! ## store -/

@[simp] theorem Engine.store_rounds (e : Engine W) (v : Bus W) :
    e.store .rounds v = { e with rounds := v.setWidth 8 } := rfl
@[simp] theorem Engine.store_klen (e : Engine W) (v : Bus W) :
    e.store .klen v = { e with klen := v.setWidth 8 } := rfl
@[simp] theorem Engine.store_slen (e : Engine W) (v : Bus W) :
    e.store .slen v = { e with slen := v.setWidth 9 } := rfl
@[simp] theorem Engine.store_x (e : Engine W) (i : Reg) (v : Bus W) :
    e.store (.x i) v = e.setX i (v.setWidth W.bits) := rfl
@[simp] theorem Engine.store_key (e : Engine W) (k : Fin Config.kmax) (v : Bus W) :
    e.store (.key k) v = { e with key := Memory.write e.key k (v.setWidth 8) } := rfl
@[simp] theorem Engine.store_subkey (e : Engine W) (k : Fin Config.tmax) (v : Bus W) :
    e.store (.subkey k) v = { e with sub := Memory.write e.sub k (v.setWidth W.bits) } := rfl

end Sys2Proof.Machine
end

