-- ==== Sys2Proof/Laws/Step.lean ====
section
/-! SUPPORT. Everything a command and a host operation can do, said once: later proofs cite these and do
not unfold the meanings again. -/

namespace Sys2Proof.Machine

variable {W : Width}

/-! ## What a command can do to the engine -/

/-- The four kinds of effect of a command (40_word_alu.md R111, 42_key_schedule.md R141 and R150,
43_cipher.md R161 and R173). -/
inductive CommandEffect (e : Engine W) : Engine W → Prop
  /-- A word or rotate command writes one register. -/
  | register (rd : Reg) (v : Word W) : CommandEffect e (e.setX rd v)
  /-- A precondition fails: a fault is taken. -/
  | raised (c : Cause) (info : BitVec 32) : CommandEffect e (e.raise c info)
  /-- KEYEXP installs the schedule of the key. -/
  | schedule (key : Vector Byte e.klen.toNat) (h : Memory.gather e.key e.klen.toNat = .ok key) :
      CommandEffect e
        { e with
          sub := Memory.writeFrom e.sub 0 (expandKey e.pw e.qw key e.rounds.toNat).toList
          slen := BitVec.ofNat 9 (subkeyCount e.rounds.toNat) }
  /-- ENC and DEC replace the block. -/
  | block (a b : Word W) : CommandEffect e { e with x0 := a, x1 := b }

theorem Engine.keyexp_effect (e : Engine W) : CommandEffect e e.keyexp := by
  unfold Engine.keyexp
  split
  · exact .raised _ _
  · rename_i key h
    exact .schedule key h

theorem Engine.cipher_effect (e : Engine W) (cw : BitVec 32)
    (f : (r : Nat) → 0 < r → Vector (Word W) (subkeyCount r) → Block W.bits → Block W.bits) :
    CommandEffect e (e.cipher cw f) := by
  unfold Engine.cipher
  split
  · exact .raised _ _
  · split
    · exact .raised _ _
    · split
      · exact .raised _ _
      · exact .block _ _

/-- Every command answers a next state, in which only the engine differs, by one of the four effects. -/
theorem exec_effect (i : Instr) (e : Engine W) (p : List (HostOp W)) (o : List (Bus W)) :
    ∃ e', exec i ⟨W, e, p, o⟩ = .next ⟨W, e', p, o⟩ ∧ CommandEffect e e' := by
  cases i with
  | keyexp => exact ⟨_, rfl, e.keyexp_effect⟩
  | enc => exact ⟨_, rfl, e.cipher_effect _ _⟩
  | dec => exact ⟨_, rfl, e.cipher_effect _ _⟩
  | _ => exact ⟨_, rfl, .register _ _⟩

/-! ## What one host operation does -/

/-- With no host operation to come nothing changes. -/
theorem step_idle (e : Engine W) (o : List (Bus W)) : step ⟨W, e, [], o⟩ = .next ⟨W, e, [], o⟩ := rfl

/-- A host read. -/
theorem step_read (e : Engine W) (addr : BitVec 10) (p : List (HostOp W)) (o : List (Bus W)) :
    step ⟨W, e, .read addr :: p, o⟩ =
      .next ⟨W, (e.hostRead addr).1, p, o ++ [(e.hostRead addr).2]⟩ := rfl

/-- A host write. -/
theorem step_write (e : Engine W) (addr : BitVec 10) (v : Bus W) (p : List (HostOp W))
    (o : List (Bus W)) :
    step ⟨W, e, .write addr v :: p, o⟩ = State.hostWrite ⟨W, e, p, o⟩ addr v := rfl

/-- A reset. -/
theorem step_reset (e : Engine W) (p : List (HostOp W)) (o : List (Bus W)) :
    step ⟨W, e, .reset :: p, o⟩ = .next ⟨W, Engine.reset e.pw e.qw, p, o⟩ := rfl

/-- The kinds of effect of one host operation on the engine (20_memory.md R52, R53, 70_reset_and_hazards.md
R200). -/
inductive HostEffect (e : Engine W) : HostOp W → Engine W → Prop
  /-- A read that returns a value, any operation that is ignored while halted. -/
  | unchanged (op : HostOp W) (h : op ≠ .reset) : HostEffect e op e
  /-- A host access or a command word that faults. -/
  | raised (op : HostOp W) (h : op ≠ .reset) (c : Cause) (info : BitVec 32) :
      HostEffect e op (e.raise c info)
  /-- A legal write of a writable register that is not CMD. -/
  | stored (addr : BitVec 10) (v : Bus W) (r : HostReg) (hrun : e.fault = false)
      (ha : HostReg.ofAddr addr = some r) (hro : r.readOnly = false) (hfit : v.toNat < 2 ^ r.width W)
      (hr : r ≠ .cmd) : HostEffect e (.write addr v) (e.store r v)
  /-- A command. -/
  | command (addr : BitVec 10) (v : Bus W) (e' : Engine W) (hrun : e.fault = false)
      (h : CommandEffect e e') : HostEffect e (.write addr v) e'
  /-- A reset. -/
  | reset : HostEffect e .reset (Engine.reset e.pw e.qw)

theorem Engine.readEntry_effect {n : Nat} (e : Engine W) (addr : BitVec 10) (entry : Option (BitVec n)) :
    HostEffect e (.read addr) (e.readEntry addr entry).1 := by
  cases entry with
  | none => exact .raised _ (by simp) _ _
  | some v => exact .unchanged _ (by simp)

theorem Engine.hostRead_effect (e : Engine W) (addr : BitVec 10) :
    HostEffect e (.read addr) (e.hostRead addr).1 := by
  unfold Engine.hostRead
  split <;>
    first
      | exact .unchanged _ (by simp)
      | exact .raised _ (by simp) _ _
      | exact e.readEntry_effect _ _

theorem State.hostWrite_effect (e : Engine W) (p : List (HostOp W)) (o : List (Bus W)) (addr : BitVec 10)
    (v : Bus W) :
    ∃ e', State.hostWrite ⟨W, e, p, o⟩ addr v = .next ⟨W, e', p, o⟩ ∧
      HostEffect e (.write addr v) e' := by
  unfold State.hostWrite
  split
  · exact ⟨e, rfl, .unchanged _ (by simp)⟩
  · rename_i hrun
    have hrun : e.fault = false := by simpa using hrun
    split
    · exact ⟨_, rfl, .raised _ (by simp) _ _⟩
    · rename_i r ha
      split
      · exact ⟨_, rfl, .raised _ (by simp) _ _⟩
      · rename_i hro
        split
        · exact ⟨_, rfl, .raised _ (by simp) _ _⟩
        · rename_i hfit
          split
          · unfold State.command
            split
            · exact ⟨_, rfl, .raised _ (by simp) _ _⟩
            · rename_i i _
              obtain ⟨e', h1, h2⟩ := exec_effect i e p o
              exact ⟨e', h1, .command _ _ _ hrun h2⟩
          · rename_i hr
            exact ⟨_, rfl, .stored addr v r hrun ha (by simpa using hro) (Nat.lt_of_not_le hfit) hr⟩

/-- One step with a host operation to come: it is performed, it alone leaves the list, the instance stays,
and its effect on the engine is one of `HostEffect`. -/
theorem step_effect (e : Engine W) (op : HostOp W) (p : List (HostOp W)) (o : List (Bus W)) :
    ∃ e' o', step ⟨W, e, op :: p, o⟩ = .next ⟨W, e', p, o'⟩ ∧ HostEffect e op e' := by
  cases op with
  | read addr => exact ⟨_, _, rfl, e.hostRead_effect addr⟩
  | write addr v =>
    obtain ⟨e', h1, h2⟩ := State.hostWrite_effect e p o addr v
    exact ⟨e', o, h1, h2⟩
  | reset => exact ⟨_, _, rfl, .reset⟩

end Sys2Proof.Machine
end

