-- ==== Sys2Proof/Laws/Words.lean ====
section
/-! SUPPORT. The word functions in terms of the library's bit vectors, the simp set that takes the model's
operators down to them. -/

namespace Sys2Proof

/-- The width in bits of every instance is a positive power of two, 8 at least (00_scope.md R5). -/
theorem Width.bits_eq (W : Width) : W.bits = 8 ∨ W.bits = 16 ∨ W.bits = 32 ∨ W.bits = 64 := by
  cases W <;> decide

theorem Width.bits_pos (W : Width) : 0 < W.bits := by cases W <;> decide

theorem Width.eight_le_bits (W : Width) : 8 ≤ W.bits := by cases W <;> decide

theorem Width.bits_le_dw (W : Width) : W.bits ≤ W.dw := by cases W <;> decide

theorem Width.thirtyTwo_le_dw (W : Width) : 32 ≤ W.dw := by cases W <;> decide

theorem Width.bytes_pos (W : Width) : 0 < W.bytes := by cases W <;> decide

end Sys2Proof

namespace Sys2Proof.Machine

variable {w : Nat}

@[simp] theorem wordAdd_eq (x y : BitVec w) : wordAdd x y = x + y := rfl
@[simp] theorem wordSub_eq (x y : BitVec w) : wordSub x y = x - y := rfl
@[simp] theorem wordXor_eq (x y : BitVec w) : wordXor x y = x ^^^ y := rfl
@[simp] theorem wordOr_eq (x y : BitVec w) : wordOr x y = x ||| y := rfl
@[simp] theorem wordAnd_eq (x y : BitVec w) : wordAnd x y = x &&& y := rfl
@[simp] theorem shl_eq (x : BitVec w) (n : Nat) : shl x n = x <<< (n % w) := rfl
@[simp] theorem shr_eq (x : BitVec w) (n : Nat) : shr x n = x >>> (n % w) := rfl
@[simp] theorem fromByte_eq (v : Byte) : (fromByte v : BitVec w) = v.setWidth w := rfl
@[simp] theorem fromUint_eq (n : Nat) : (fromUint n : BitVec w) = BitVec.ofNat w n := rfl
@[simp] theorem wordAmount_eq (x : BitVec w) : wordAmount x = x.toNat := rfl
@[simp] theorem immAmount_eq (n : Nat) : immAmount n = n := rfl
@[simp] theorem immByte_eq (n : Nat) : immByte n = BitVec.ofNat 8 n := rfl

/-- Only the amount modulo the width matters to a shift or a rotation. -/
theorem rotl_mod (x : BitVec w) (n : Nat) : rotl x (n % w) = rotl x n := by
  simp [rotl]

theorem rotr_mod (x : BitVec w) (n : Nat) : rotr x (n % w) = rotr x n := by
  simp [rotr]

end Sys2Proof.Machine
end

