-- ==== Sys2Proof/Tests/Slice0.lean ====
section
/-! SUPPORT. The model's own tests: ill-formed terms refused, decoding of words written out bit by bit from
30_encoding.md R71 and R76, single steps whose results the spec states (the source of each stands in its
comment), and for each statement with hypotheses a witness that meets them. -/

namespace Sys2Proof.Tests

open Sys2Proof.Machine

/-! ## Small states -/

/-- The engine of any width after reset, the PW and QW of 93_implementation_defined.md G1. -/
def fresh (W : Width) : Engine W := Engine.reset (Config.recommendedPW W) (Config.recommendedQW W)

/-- A machine with no host operation to come. -/
def mach {W : Width} (e : Engine W) : State := ⟨W, e, [], []⟩

/-- A fresh machine whose X0 and X1 are given. -/
def withBlock (W : Width) (a b : Nat) : State :=
  mach { fresh W with x0 := BitVec.ofNat W.bits a, x1 := BitVec.ofNat W.bits b }

/-- The registers of a next state. -/
def regs : Outcome → Option (List Nat)
  | .next s => some [s.engine.x0.toNat, s.engine.x1.toNat, s.engine.x2.toNat, s.engine.x3.toNat]
  | .fault _ => none
  | .refused _ => none

/-- SLEN and the schedule of a next state. -/
def schedule : Outcome → Option (Nat × List (Nat × Nat))
  | .next s => some (s.engine.slen.toNat, s.engine.sub.map (fun c => (c.1, c.2.toNat)))
  | .fault _ => none
  | .refused _ => none

/-- STATUS, FINFO and the last value returned to the host. -/
def status : Outcome → Option (Nat × Nat × Option Nat)
  | .next s => some (s.engine.statusWord.toNat, s.engine.finfo.toNat, (s.returned.getLast?).map BitVec.toNat)
  | .fault _ => none
  | .refused _ => none

/-- One host operation on an engine. -/
def hostStep {W : Width} (e : Engine W) (op : HostOp W) : Outcome := step ⟨W, e, [op], []⟩

/-- 95_test_vectors.md V31: the host-installed schedule 01 .. 07, three rounds, with a given block. -/
def ready (a b : Nat) : Engine .w8 :=
  { fresh .w8 with
    x0 := BitVec.ofNat _ a, x1 := BitVec.ofNat _ b, rounds := 3, slen := 7,
    sub := [(0, 1), (1, 2), (2, 3), (3, 4), (4, 5), (5, 6), (6, 7)] }

/-- 95_test_vectors.md V22: the key AA, zero rounds. -/
def oneByteKey : Engine .w8 := { fresh .w8 with klen := 1, key := [(0, 0xAA)] }

/-- A halted engine (V51). -/
def halted : Engine .w8 :=
  { fresh .w8 with fault := true, cause := 5, finfo := BitVec.ofNat _ 0x02000000 }

/-! ## WellFormed: one ill-formed term for each check -/

theorem test_wf_ldi : Instr.wellFormed (.ldi .x0 65536) = false := by decide
theorem test_wf_ldb : Instr.wellFormed (.ldb .x0 256) = false := by decide
theorem test_wf_shli : Instr.wellFormed (.shli .x0 .x1 65536) = false := by decide
theorem test_wf_shri : Instr.wellFormed (.shri .x0 .x1 65536) = false := by decide
theorem test_wf_rotli : Instr.wellFormed (.rotli .x0 .x1 65536) = false := by decide
theorem test_wf_rotri : Instr.wellFormed (.rotri .x0 .x1 65536) = false := by decide
theorem test_wf_largest :
    Instr.wellFormed (.ldi .x0 65535) = true ∧ Instr.wellFormed (.ldb .x0 255) = true := by decide
theorem test_assemble_refuses : assemble (.ldb .x0 256) = none := by decide
theorem test_width_refused : Width.ofBytes 3 = none ∧ Width.ofBytes 4 = some .w32 := by decide

/-! ## Decode: words written out bit by bit (R71, R76); op, rd, rs1, rs2 or 0, rest -/

theorem test_decode_keyexp : decode 0b00000001_00_00_00_000000000000000000#32 = .ok .keyexp := by decide
theorem test_decode_enc : decode 0b00000010_00_00_00_000000000000000000#32 = .ok .enc := by decide
theorem test_decode_dec : decode 0b00000011_00_00_00_000000000000000000#32 = .ok .dec := by decide
theorem test_decode_add :
    decode 0b00010000_10_00_01_000000000000000000#32 = .ok (.add .x2 .x0 .x1) := by decide
theorem test_decode_sub :
    decode 0b00010001_10_11_01_000000000000000000#32 = .ok (.sub .x2 .x3 .x1) := by decide
theorem test_decode_xor :
    decode 0b00010010_11_00_01_000000000000000000#32 = .ok (.xor .x3 .x0 .x1) := by decide
theorem test_decode_or :
    decode 0b00010011_01_10_10_000000000000000000#32 = .ok (.or .x1 .x2 .x2) := by decide
theorem test_decode_and :
    decode 0b00010100_00_01_11_000000000000000000#32 = .ok (.and .x0 .x1 .x3) := by decide
theorem test_decode_shl :
    decode 0b00010101_10_00_01_000000000000000000#32 = .ok (.shl .x2 .x0 .x1) := by decide
theorem test_decode_shr :
    decode 0b00010110_01_11_10_000000000000000000#32 = .ok (.shr .x1 .x3 .x2) := by decide
theorem test_decode_rotl :
    decode 0b00010111_11_11_00_000000000000000000#32 = .ok (.rotl .x3 .x3 .x0) := by decide
theorem test_decode_rotr :
    decode 0b00011000_11_00_10_000000000000000000#32 = .ok (.rotr .x3 .x0 .x2) := by decide
theorem test_decode_ldi :
    decode 0b00100000_11_000000_0001001000110100#32 = .ok (.ldi .x3 0x1234) := by decide
theorem test_decode_ldb :
    decode 0b00100001_01_000000_00000000_10101010#32 = .ok (.ldb .x1 0xAA) := by decide
theorem test_decode_shli :
    decode 0b00100101_01_00_0000_0000000000000100#32 = .ok (.shli .x1 .x0 4) := by decide
theorem test_decode_shri :
    decode 0b00100110_10_01_0000_1111111111111111#32 = .ok (.shri .x2 .x1 65535) := by decide
theorem test_decode_rotli :
    decode 0b00100111_10_00_0000_0000000000000011#32 = .ok (.rotli .x2 .x0 3) := by decide
theorem test_decode_rotri :
    decode 0b00101000_10_01_0000_0000000000000011#32 = .ok (.rotri .x2 .x1 3) := by decide

/-- The illegal words of V40 to V44. -/
theorem test_decode_illegal :
    decode 0x00000000 = .error .unlistedOpcode ∧ decode 0x01000001 = .error .nonzeroReserved ∧
    decode 0x10840001 = .error .nonzeroReserved ∧ decode 0x21400100 = .error .nonzeroReserved ∧
    decode 0x19000000 = .error .unlistedOpcode := by decide

/-- One must-be-0 bit of each of the formats I and L (R71). -/
theorem test_decode_reserved_bits :
    decode 0x27410003 = .error .nonzeroReserved ∧ decode 0x20010000 = .error .nonzeroReserved ∧
    decode 0x21200000 = .error .nonzeroReserved := by decide

/-- Worked encodings of R76 and P2. -/
theorem test_encode :
    encode (.add .x2 .x0 .x1) = 0x10840000 ∧ encode (.rotli .x2 .x0 3) = 0x27800003 ∧
    encode (.ldi .x3 0x1234) = 0x20C01234 ∧ encode (.ldb .x1 0xAA) = 0x214000AA ∧
    encode (.rotl .x3 .x3 .x1) = 0x17F40000 ∧ encode (.sub .x2 .x3 .x1) = 0x11B40000 := by decide

theorem test_decodeTableWord : decodeTableWord 32 0x10840000 = some (.add .x2 .x0 .x1) := by decide

/-- `step` runs the word `withFetchWord` places as the first command after reset. -/
theorem test_withFetchWord :
    step (State.reset.withFetchWord 32 0x20C01234) = exec (.ldi .x3 0x1234) State.reset := rfl

/-! ## One command each -/

/-- R112. -/
theorem test_add : regs (exec (.add .x2 .x0 .x1) (withBlock .w8 0xC8 0x64)) = some [0xC8, 0x64, 0x2C, 0] := by
  decide
/-- R112: 0xFF + 0x01 wraps; R111: the destination is also a source. -/
theorem test_add_wraps_onto_source :
    regs (exec (.add .x0 .x0 .x1) (withBlock .w8 0xFF 0x01)) = some [0, 1, 0, 0] := by decide
/-- R113. -/
theorem test_sub : regs (exec (.sub .x2 .x0 .x1) (withBlock .w8 5 0x0A)) = some [5, 0x0A, 0xFB, 0] := by decide
/-- R114. -/
theorem test_xor :
    regs (exec (.xor .x3 .x0 .x1) (withBlock .w8 0x11 0x22)) = some [0x11, 0x22, 0, 0x33] := by decide
/-- R115. -/
theorem test_or :
    regs (exec (.or .x2 .x0 .x1) (withBlock .w8 0x50 0x05)) = some [0x50, 0x05, 0x55, 0] := by decide
/-- R116. -/
theorem test_and :
    regs (exec (.and .x2 .x0 .x1) (withBlock .w8 0xF3 0x07)) = some [0xF3, 0x07, 0x03, 0] := by decide
/-- R117: the amount 9 is reduced to 1. -/
theorem test_shl :
    regs (exec (.shl .x2 .x0 .x1) (withBlock .w8 0x81 0x09)) = some [0x81, 0x09, 0x02, 0] := by decide
/-- R118. -/
theorem test_shr :
    regs (exec (.shr .x2 .x0 .x1) (withBlock .w8 0x81 0x01)) = some [0x81, 0x01, 0x40, 0] := by decide
/-- R119. -/
theorem test_shli :
    regs (exec (.shli .x1 .x0 4) (withBlock .w32 0x80000001 0)) = some [0x80000001, 0x10, 0, 0] := by decide
/-- R119: an amount of w copies. -/
theorem test_shli_full_width :
    regs (exec (.shli .x1 .x0 8) (withBlock .w8 0x81 0)) = some [0x81, 0x81, 0, 0] := by decide
/-- R120. -/
theorem test_shri :
    regs (exec (.shri .x1 .x0 4) (withBlock .w32 0x80000001 0)) = some [0x80000001, 0x08000000, 0, 0] := by
  decide
/-- R121: the upper byte is dropped on an 8-bit instance. -/
theorem test_ldi : regs (exec (.ldi .x0 0x1234) (withBlock .w8 0 0)) = some [0x34, 0, 0, 0] := by decide
/-- R121. -/
theorem test_ldi_wide : regs (exec (.ldi .x3 0x1234) (withBlock .w32 0 0)) = some [0, 0, 0, 0x1234] := by decide
/-- R122. -/
theorem test_ldb : regs (exec (.ldb .x1 0xAA) (withBlock .w16 0 0)) = some [0, 0xAA, 0, 0] := by decide
/-- R133. -/
theorem test_rotl :
    regs (exec (.rotl .x2 .x0 .x1) (withBlock .w8 0xB7 3)) = some [0xB7, 3, 0xBD, 0] := by decide
/-- P2: the amount is the low five bits of the word. -/
theorem test_rotl_by_word :
    regs (exec (.rotl .x3 .x0 .x1) (withBlock .w32 0xB9F9A669 0xABCDF011)) =
      some [0xB9F9A669, 0xABCDF011, 0, 0x4CD373F3] := by decide
/-- R134. -/
theorem test_rotr :
    regs (exec (.rotr .x2 .x0 .x1) (withBlock .w8 0xBD 3)) = some [0xBD, 3, 0xB7, 0] := by decide
/-- R135. -/
theorem test_rotli :
    regs (exec (.rotli .x1 .x0 3) (withBlock .w32 0xB7E15163 0)) = some [0xB7E15163, 0xBF0A8B1D, 0, 0] := by
  decide
/-- P4: an amount of w copies. -/
theorem test_rotli_full_width :
    regs (exec (.rotli .x3 .x0 8) (withBlock .w8 0xB7 0)) = some [0xB7, 0, 0, 0xB7] := by decide
/-- R136. -/
theorem test_rotri :
    regs (exec (.rotri .x1 .x0 1) (withBlock .w8 0xED 0)) = some [0xED, 0xF6, 0, 0] := by decide

/-- V22. -/
theorem test_keyexp : schedule (exec .keyexp (mach oneByteKey)) = some (1, [(0, 0x5F)]) := by decide
/-- V54: K[0] is absent. -/
theorem test_keyexp_absent :
    status (exec .keyexp (mach { fresh .w8 with klen := 2, key := [(1, 0xAA)] })) =
      some (0x71, 0x100, none) := by decide
/-- V31. -/
theorem test_enc : regs (exec .enc (mach (ready 0x10 0x20))) = some [0xD9, 0x4C, 0, 0] := by decide
/-- V53: S[1] is absent. -/
theorem test_enc_absent :
    status (exec .enc (mach { fresh .w8 with rounds := 1, slen := 3, sub := [(0, 1), (2, 3)] })) =
      some (0x71, 0x201, none) := by decide
/-- V31. -/
theorem test_dec : regs (exec .dec (mach (ready 0xD9 0x4C))) = some [0x10, 0x20, 0, 0] := by decide
/-- R181: RoundsZero carries the word of DEC. -/
theorem test_dec_roundsZero : status (exec .dec (mach (fresh .w8))) = some (0x51, 0x03000000, none) := by decide

/-! ## One host operation each -/

/-- V42. -/
theorem test_illegal_command :
    status (hostStep (fresh .w8) (.write 0x000 0x10840001)) = some (0x11, 0x10840001, none) := by decide
/-- V45. -/
theorem test_read_unmapped : status (hostStep (fresh .w8) (.read 0x007)) = some (0x21, 0x007, some 0) := by decide
/-- V46. -/
theorem test_read_cmd : status (hostStep (fresh .w8) (.read 0x000)) = some (0x31, 0, some 0) := by decide
/-- V47. -/
theorem test_write_status : status (hostStep (fresh .w8) (.write 0x001 0)) = some (0x31, 1, none) := by decide
/-- V48 and its nearest accepted neighbour. -/
theorem test_write_x0 :
    status (hostStep (fresh .w8) (.write 0x010 0x100)) = some (0x41, 0x010, none) ∧
    regs (hostStep (fresh .w8) (.write 0x010 0xFF)) = some [0xFF, 0, 0, 0] := by decide
/-- V50. -/
theorem test_write_slen : status (hostStep (fresh .w8) (.write 0x006 512)) = some (0x41, 0x006, none) := by decide
/-- V55. -/
theorem test_read_absent_key :
    status (hostStep (fresh .w8) (.read 0x100)) = some (0x71, 0x100, some 0) := by decide
/-- V56: a halted engine ignores a write, and a read that would fault records nothing. -/
theorem test_halted :
    regs (hostStep halted (.write 0x010 7)) = some [0, 0, 0, 0] ∧
    status (hostStep halted (.read 0x007)) = some (0x51, 0x02000000, some 0) := by decide
/-- V59. -/
theorem test_config :
    (hostStep (fresh .w8) (.read 0x003) |> status) = some (0, 0, some 0x00FFFF01) ∧
    (hostStep (fresh .w32) (.read 0x003) |> status) = some (0, 0, some 0x00FFFF04) := by decide
/-- P5: reset is the way out. -/
theorem test_reset : status (hostStep halted .reset) = some (0, 0, none) := by decide
/-- R145: the packed words of the key DE AD BE at w = 16. -/
theorem test_pack :
    (packKey (#v[0xDE#8, 0xAD#8, 0xBE#8] : Vector Byte 3) : Vector (Word .w16) _).toList.map BitVec.toNat =
      [0xADDE, 0x00BE] := by decide

/-! ## Witnesses: the hypotheses of each statement are met, each clause at a boundary value -/

theorem witness_DisjointAddIsOrAndXor : wordAnd (0xF0 : Word .w8) 0x0F = 0 := by decide
theorem witness_RotationsMoveBits : 7 < Width.bits .w8 ∧ 0 < Width.bits .w64 := by decide
theorem witness_RotationIdentities : 8 % Width.bits .w8 = 0 ∧ 0 % Width.bits .w32 = 0 := by decide
theorem witness_RotationsAreOrsOfShifts : 16 % Width.bits .w8 = 0 ∧ 7 % Width.bits .w8 ≠ 0 := by decide
theorem witness_RotationAmountIsTheLowBits :
    Width.bits .w8 = 8 ∧ Width.bits .w16 = 16 ∧ Width.bits .w32 = 32 ∧ Width.bits .w64 = 64 := by decide
theorem witness_ShiftsReduceTheirAmount :
    0 < 9 % Width.bits .w8 ∧ 6 + 9 % Width.bits .w8 < Width.bits .w8 := by decide
theorem witness_AddAndSubWriteWrappedResult : (fresh .w8).fault = false := by decide
theorem witness_BitwiseCommandsWriteBits : (fresh .w16).fault = false := by decide
theorem witness_ShiftCommandsShiftByWord : (fresh .w32).fault = false := by decide
theorem witness_ImmediateShiftsShiftByImm16 : 65535 < 2 ^ 16 ∧ (fresh .w64).fault = false := by decide
theorem witness_LoadCommandsWriteImmediate :
    (fresh .w8).fault = false ∧ 65535 < 2 ^ 16 ∧ 255 < 2 ^ 8 ∧ (1 : BitVec 8) ≠ 0 := by decide
theorem witness_RotateCommandsRotate : 65535 < 2 ^ 16 ∧ (fresh .w8).fault = false := by decide
theorem witness_WordCommandsWriteOnlyTheirDestination :
    Spec.destination (.ldi .x3 65535) = some .x3 ∧ (fresh .w8).fault = false := by decide

/-- The last lane of the last word, with and without a key byte. -/
theorem witness_PackedKeyIsLittleEndian :
    1 < Config.keyWords .w16 3 ∧ 1 < Width.bytes .w16 ∧ ¬ 1 * Width.bytes .w16 + 1 < 3 ∧
    0 * Width.bytes .w16 + 1 < 3 := by decide
theorem witness_FillIsAnArithmeticProgression : 0 < 1 ∧ 509 + 1 < 511 ∧ 510 < 511 := by decide
theorem witness_KeyexpFollowsItsPseudocode :
    oneByteKey.fault = false ∧ ∀ k < oneByteKey.klen.toNat, Memory.read oneByteKey.key k = some 0xAA := by decide
/-- K[0] absent, K[1] absent with K[0] present, and a key with every byte. -/
theorem witness_KeyexpReportsLowestAbsentKeyByte :
    (fresh .w8).fault = false ∧
    (0 < ({ fresh .w8 with klen := 2, key := [(1, 0xAA)] } : Engine .w8).klen.toNat ∧
      Memory.read ([(1, 0xAA)] : List Host.Cell) 0 = none) ∧
    (1 < ({ oneByteKey with klen := 2 } : Engine .w8).klen.toNat ∧
      Memory.read oneByteKey.key 1 = none ∧ ∀ j < 1, Memory.read oneByteKey.key j ≠ none) ∧
    ∀ k, k < oneByteKey.klen.toNat → Memory.read oneByteKey.key k ≠ none := by decide
/-- V28: two keys that differ only beyond the first word, and two lengths with the same count. -/
theorem witness_MixingTouchesOnlyTheFirstEntries :
    (∀ k (_ : k < 5), k < Width.bytes .w32 →
      (#v[0x11#8, 0x22#8, 0x33#8, 0x44#8, 0x55#8])[k] = (#v[0x11#8, 0x22#8, 0x33#8, 0x44#8, 0x99#8])[k]) ∧
    mixCount .w32 4 1 = mixCount .w32 5 1 ∧ 1 < Config.keyWords .w32 5 ∧ 1 < subkeyCount 1 := by decide
/-- Two engines that agree on the inputs of KEYEXP and on nothing else. -/
theorem witness_KeyexpIsDeterministic :
    let f : Engine .w8 := { oneByteKey with x0 := 9, key := [(0, 0xAA), (5, 1)], sub := [(0, 3)], slen := 1 }
    oneByteKey.fault = false ∧ f.fault = false ∧ oneByteKey.pw = f.pw ∧ oneByteKey.qw = f.qw ∧
    oneByteKey.klen = f.klen ∧ oneByteKey.rounds = f.rounds ∧
    (∀ k, k < oneByteKey.klen.toNat → Memory.read oneByteKey.key k ≠ none) ∧
    ∀ k < oneByteKey.klen.toNat, Memory.read oneByteKey.key k = Memory.read f.key k := by decide
theorem witness_EmptyKeyAndZeroRoundsAreLegal :
    (fresh .w8).fault = false ∧ (fresh .w8).klen.toNat = 0 ∧ 0 < Config.keyWords .w8 0 ∧
    oneByteKey.fault = false ∧ oneByteKey.rounds.toNat = 0 ∧
    (∀ k, k < oneByteKey.klen.toNat → Memory.read oneByteKey.key k ≠ none) ∧
    (Config.recommendedPW .w8).toNat = 0xB7 ∧ (Config.recommendedQW .w8).toNat = 0x9F := by decide
theorem witness_ScheduleVectorsOfFourWidths :
    ((Config.recommendedPW .w8).toNat = 0xB7 ∧ (Config.recommendedQW .w8).toNat = 0x9F) ∧
    ((Config.recommendedPW .w16).toNat = 0xB7E1 ∧ (Config.recommendedQW .w16).toNat = 0x9E37) ∧
    ((Config.recommendedPW .w32).toNat = 0xB7E15163 ∧ (Config.recommendedQW .w32).toNat = 0x9E3779B9) ∧
    ((Config.recommendedPW .w64).toNat = 0xB7E151628AED2A6B ∧
      (Config.recommendedQW .w64).toNat = 0x9E3779B97F4A7C15) := by decide

/-- The engine of V31 meets the preconditions of ENC and DEC. -/
theorem ready_is_cipherReady (a b : Nat) : Spec.cipherReady (ready a b) := by
  refine ⟨(by decide : (3 : BitVec 8).toNat ≠ 0), (by decide : (7 : BitVec 9).toNat = 2 * (3 : BitVec 8).toNat + 1), ?_⟩
  show ∀ k, k < 7 →
    Memory.read ([(0, 1), (1, 2), (2, 3), (3, 4), (4, 5), (5, 6), (6, 7)] : Memory (Word .w8)) k ≠ none
  decide

/-- V52: one round and no schedule. -/
def oneRound : Engine .w8 := { fresh .w8 with rounds := 1 }

/-- One round, a schedule whose last word is absent. -/
def lastAbsent : Engine .w8 := { fresh .w8 with rounds := 1, slen := 3, sub := [(0, 1), (1, 3)] }

/-- V51, V52, V53 and V31: each of the four cases, for ENC and for DEC. -/
theorem witness_CipherPreconditionsInOrder :
    ((Instr.enc = .enc ∧ 0x02000000 = 0x02000000) ∨ (Instr.enc = .dec ∧ 0x02000000 = 0x03000000)) ∧
    ((Instr.dec = .enc ∧ 0x03000000 = 0x02000000) ∨ (Instr.dec = .dec ∧ 0x03000000 = 0x03000000)) ∧
    ((fresh .w8).fault = false ∧ (fresh .w8).rounds.toNat = 0) ∧
    (oneRound.fault = false ∧ oneRound.rounds.toNat ≠ 0 ∧
      oneRound.slen.toNat ≠ 2 * oneRound.rounds.toNat + 1) ∧
    (lastAbsent.fault = false ∧ lastAbsent.rounds.toNat ≠ 0 ∧
      lastAbsent.slen.toNat = 2 * lastAbsent.rounds.toNat + 1 ∧ 2 < lastAbsent.slen.toNat ∧
      Memory.read lastAbsent.sub 2 = none ∧ ∀ j < 2, Memory.read lastAbsent.sub j ≠ none) ∧
    Spec.cipherReady (ready 0 0) :=
  ⟨by decide, by decide, by decide, by decide, by decide, ready_is_cipherReady 0 0⟩
theorem witness_EncFollowsItsPseudocode :
    (ready 0x10 0x20).fault = false ∧ (ready 0x10 0x20).rounds.toNat ≠ 0 ∧
    (ready 0x10 0x20).slen.toNat = 2 * (ready 0x10 0x20).rounds.toNat + 1 ∧
    (∀ k < 2 * (ready 0x10 0x20).rounds.toNat + 1,
      Memory.read (ready 0x10 0x20).sub k = some (BitVec.ofNat _ (k + 1))) := by decide
theorem witness_DecFollowsItsPseudocode :
    (ready 0xD9 0x4C).fault = false ∧ (ready 0xD9 0x4C).rounds.toNat ≠ 0 ∧
    (ready 0xD9 0x4C).slen.toNat = 2 * (ready 0xD9 0x4C).rounds.toNat + 1 ∧
    (∀ k < 2 * (ready 0xD9 0x4C).rounds.toNat + 1,
      Memory.read (ready 0xD9 0x4C).sub k = some (BitVec.ofNat _ (k + 1))) := by decide
theorem witness_DecryptUndoesEncrypt :
    (ready 0xFF 0xFE).fault = false ∧ Spec.cipherReady (ready 0xFF 0xFE) :=
  ⟨by decide, ready_is_cipherReady _ _⟩
/-- V38: two schedules that differ in S[2r] only. -/
theorem witness_CipherChangesOnlyTheBlock :
    let f : Engine .w8 := { ready 0x10 0x20 with
      x2 := 1, sub := [(0, 1), (1, 2), (2, 3), (3, 4), (4, 5), (5, 6), (6, 0xFF)] }
    (ready 0x10 0x20).fault = false ∧ f.fault = false ∧ Spec.cipherReady (ready 0x10 0x20) ∧
    Spec.cipherReady f ∧ (ready 0x10 0x20).x0 = f.x0 ∧ (ready 0x10 0x20).x1 = f.x1 ∧
    (ready 0x10 0x20).rounds = f.rounds ∧
    ∀ k, k < 2 * (ready 0x10 0x20).rounds.toNat → Memory.read (ready 0x10 0x20).sub k = Memory.read f.sub k := by
  refine ⟨by decide, by decide, ready_is_cipherReady _ _, ⟨by decide, by decide, ?_⟩, by decide, by decide,
    by decide, by decide⟩
  show ∀ k, k < 7 →
    Memory.read ([(0, 1), (1, 2), (2, 3), (3, 4), (4, 5), (5, 6), (6, 0xFF)] : Memory (Word .w8)) k ≠ none
  decide
theorem witness_CipherRunsAfterKeyexp :
    let e : Engine .w8 := { oneByteKey with rounds := 1 }
    e.fault = false ∧ (∀ k, k < e.klen.toNat → Memory.read e.key k ≠ none) ∧ e.rounds.toNat ≠ 0 := by decide
theorem witness_CommandsKeepKeyAndRoundCount :
    (∃ e' : Engine .w8, exec .keyexp (mach oneByteKey) = .next (mach e')) ∧ Instr.enc ≠ .keyexp :=
  ⟨⟨_, rfl⟩, by decide⟩

/-- Every class of address of a read at its boundaries. -/
theorem witness_HostReadCaseByCase :
    (∀ a ∈ [0x007#10, 0x00A#10, 0x00F#10, 0x014#10, 0x0FF#10, 0x1FF#10, 0x3FF#10], Spec.unmapped a) ∧
    (∀ a ∈ [0x006#10, 0x009#10, 0x010#10, 0x013#10, 0x100#10, 0x1FE#10, 0x200#10, 0x3FE#10],
      ¬ Spec.unmapped a) ∧
    (0 < 255 ∧ 254 < 255 ∧ Memory.read (fresh .w8).key 254 = none ∧
      Memory.read oneByteKey.key 0 = some 0xAA) ∧
    (0 < 511 ∧ 510 < 511 ∧ Memory.read (fresh .w8).sub 510 = none ∧
      Memory.read (ready 0 0).sub 6 = some 7) := by
  refine ⟨?_, ?_, by decide, by decide⟩ <;>
  · unfold Spec.unmapped
    decide
/-- Every class of address of a write at its boundaries, on 8 bits and on 64. -/
theorem witness_HostWriteCaseByCase :
    halted.fault = true ∧ (fresh .w8).fault = false ∧ Spec.unmapped 0x1FF#10 ∧
    ((0x010 ≤ (0x010#10).toNat ∧ (0x013#10).toNat ≤ 0x013) ∧
      (0x100 ≤ (0x100#10).toNat ∧ (0x1FE#10).toNat ≤ 0x1FE) ∧
      (0x200 ≤ (0x200#10).toNat ∧ (0x3FE#10).toNat ≤ 0x3FE)) ∧
    (2 ^ Width.bits .w8 ≤ (0x100 : Bus .w8).toNat ∧ 2 ^ 9 ≤ (512 : Bus .w8).toNat ∧
      2 ^ 32 ≤ (0x100000000 : Bus .w64).toNat) ∧
    decode (BitVec.ofNat 32 (0x19000000 : Bus .w8).toNat) = .error .unlistedOpcode ∧
    decode (BitVec.ofNat 32 (0x18000000 : Bus .w8).toNat) = .ok (.rotr .x0 .x0 .x0) ∧
    (255 : Bus .w8).toNat < 2 ^ 8 ∧ (511 : Bus .w8).toNat < 2 ^ 9 ∧
    (0xFF : Bus .w8).toNat < 2 ^ Width.bits .w8 ∧ (0xFFFFFFFF : Bus .w8).toNat < 2 ^ 32 := by
  refine ⟨by decide, by decide, ?_, by decide, by decide, by decide, by decide, by decide, by decide,
    by decide, by decide⟩
  unfold Spec.unmapped
  decide
theorem witness_HostReadsWhatItWrote :
    (fresh .w8).fault = false ∧ HostReg.readOnly (.key ⟨254, by decide⟩) = false ∧
    HostReg.key ⟨254, by decide⟩ ≠ .cmd ∧ (255 : Bus .w8).toNat < 2 ^ HostReg.width .w8 (.key ⟨254, by decide⟩) := by
  decide
theorem witness_AddressMapIsR56 :
    HostReg.ofAddr 0x3FE = some (.subkey ⟨510, by decide⟩) ∧ HostReg.ofAddr 0x3FF = none := by decide
theorem witness_FaultEntryRecordsTheFault : (fresh .w8).fault = false := by decide
theorem witness_FaultsArePrecise :
    (fresh .w8).fault = false ∧ ∃ e', step ⟨.w8, fresh .w8, [.write 0x007 0], []⟩ = .next ⟨.w8, e', [], []⟩ ∧
      e'.fault = true :=
  ⟨by decide, _, rfl, by decide⟩
theorem witness_HaltedEngineChangesNothing : halted.fault = true ∧ (0x3FF : BitVec 10) ≠ 0x001 := by decide
theorem witness_OnlyResetClearsFaultsAndEntries :
    (∃ e', step ⟨.w8, halted, [.read 0x010], []⟩ = .next ⟨.w8, e', [], [0]⟩) ∧
    (HostOp.read 0x010 : HostOp .w8) ≠ .reset ∧ halted.fault = true ∧ Memory.read oneByteKey.key 0 ≠ none ∧
    Memory.read (ready 0 0).sub 6 ≠ none :=
  ⟨⟨_, rfl⟩, by decide, by decide, by decide, by decide⟩
theorem witness_StepKeepsInvariant :
    Safety.Inv (mach oneByteKey) ∧ Safety.Inv (mach halted) ∧
    ∃ s', step { mach oneByteKey with pending := [.write 0x000 0x01000000] } = .next s' :=
  ⟨by unfold Safety.Inv; decide, by unfold Safety.Inv; decide, _, rfl⟩
theorem witness_InstanceNeverChanges : ∃ s', step { mach halted with pending := [.reset] } = .next s' := ⟨_, rfl⟩
theorem witness_StepRunsTheDecodedInstruction :
    (fresh .w8).fault = false ∧ decode 0x03000000 = .ok .dec ∧ State.reset.engine.fault = false ∧
    decodeTableWord 32 0x28900003 = some (.rotri .x2 .x1 3) := by decide
theorem witness_DecodeReadsBackEncode :
    Instr.wellFormed (.ldi .x3 65535) = true ∧ Instr.wellFormed (.ldb .x0 255) = true := by decide
theorem witness_DecodeIgnoresNoBit : decode 0x28F0FFFF = .ok (.rotri .x3 .x3 65535) := by decide
theorem witness_DecodeMatchesTheTable :
    (⟨"LDB", 0x21000000, 0xFF3FFF00⟩ : Row) ∈ opcodeTable ∧
    0x21C000FF#32 &&& 0xFF3FFF00#32 = 0x21000000#32 := by decide
/-- The boundaries of the unlisted opcode bytes, and a listed byte with a must-be-0 bit set. -/
theorem witness_IllegalWordsRaiseIllegalCommand :
    (fresh .w8).fault = false ∧ (∀ row ∈ opcodeTable, 0x19000000#32 &&& row.mask ≠ row.matchBits) ∧
    (0x04000000#32).toNat / 2 ^ 24 = 0x04 ∧ (0x0FFFFFFF#32).toNat / 2 ^ 24 = 0x0F ∧
    (0x1F000000#32).toNat / 2 ^ 24 = 0x1F ∧ (0x24000000#32).toNat / 2 ^ 24 = 0x24 ∧
    0x29 ≤ (0x29000000#32).toNat / 2 ^ 24 ∧
    (⟨"ADD", 0x10000000, 0xFF03FFFF⟩ : Row) ∈ opcodeTable ∧
    (0x10840001#32).extractLsb' 24 8 = (0x10000000#32).extractLsb' 24 8 ∧
    (0x10840001#32 &&& 0xFF03FFFF#32).extractLsb' 0 24 ≠ 0#24 := by decide
theorem witness_AssemblerExpandsPseudoInstructions :
    (List.replicate 255 (0 : Byte)).length ≤ 255 ∧ 255 < (List.replicate 256 (0 : Byte)).length ∧
    Instr.wellFormed (.rotri .x0 .x0 65536) = false := by
  refine ⟨by rw [List.length_replicate], by rw [List.length_replicate]; decide, by decide⟩
/-- A run from reset that has not gone wrong: LDI X0, 7 (P5). -/
theorem witness_safeRun : Safety.safeRun 1 (State.reset.withFetchWord 32 0x20000007) := by
  show Safety.running _
  unfold Safety.running
  rfl

end Sys2Proof.Tests
end

section
/-! SUPPORT. The proofs of the scope family (00_scope.md): the sizes of each width, the memories read after a
write, the constants `PW` and `QW` under every step, and the host operations in their order. -/

namespace Sys2Proof

/-- A width is the one built from its own `W_BYTES`, and from no other number (00_scope.md R5). -/
theorem Width.ofBytes_eq_some_iff (n : Nat) (W : Width) : Width.ofBytes n = some W ↔ W.bytes = n := by
  constructor
  · intro h
    unfold Width.ofBytes at h
    split at h <;> cases h <;> rfl
  · rintro rfl
    cases W <;> rfl

/-- `Width.ofBytes` refuses every number that is not the `W_BYTES` of a width (00_scope.md R5). -/
theorem Width.ofBytes_eq_none_iff (n : Nat) :
    Width.ofBytes n = none ↔ n ≠ 1 ∧ n ≠ 2 ∧ n ≠ 4 ∧ n ≠ 8 := by
  have hnone : Width.ofBytes n = none ↔ ∀ W : Width, W.bytes ≠ n := by
    simp only [Option.eq_none_iff_forall_ne_some, ne_eq, Width.ofBytes_eq_some_iff]
  rw [hnone]
  constructor
  · intro h
    exact ⟨(h .w8).symm, (h .w16).symm, (h .w32).symm, (h .w64).symm⟩
  · rintro ⟨h1, h2, h4, h8⟩ W
    cases W
    · exact h1.symm
    · exact h2.symm
    · exact h4.symm
    · exact h8.symm

/-- The number of key words in bytes: the factor 8 of `8b / 8u` cancels under the ceiling
(42_key_schedule.md R143). -/
theorem Config.keyWords_eq_bytes (W : Width) (b : Nat) :
    Config.keyWords W b = max 1 ((b + W.bytes - 1) / W.bytes) := by
  have hceil : (8 * b + W.bits - 1) / W.bits = (b + W.bytes - 1) / W.bytes := by
    cases W <;> simp only [Width.bits, Width.bytes] <;> omega
  rw [Config.keyWords, hceil]

end Sys2Proof

namespace Sys2Proof.Machine

variable {W : Width}

/-- Any entry after the write of one entry (10_state.md R36). -/
theorem Memory.read_write {α : Type} (m : Memory α) (k : Nat) (v : α) (j : Nat) :
    Memory.read (Memory.write m k v) j = if j = k then some v else Memory.read m j := by
  split
  · next h => rw [h, Memory.read_write_same]
  · next h => exact Memory.read_write_of_ne m h v

/-! ## The constants `PW` and `QW` (10_state.md R31) -/

@[simp] theorem Engine.store_pw (e : Engine W) (r : HostReg) (v : Bus W) : (e.store r v).pw = e.pw := by
  cases r with
  | x i => exact e.setX_pw i _
  | _ => rfl

@[simp] theorem Engine.store_qw (e : Engine W) (r : HostReg) (v : Bus W) : (e.store r v).qw = e.qw := by
  cases r with
  | x i => exact e.setX_qw i _
  | _ => rfl

/-- No command changes `PW` or `QW`. -/
theorem CommandEffect.keeps_constants {e e' : Engine W} (h : CommandEffect e e') :
    e'.pw = e.pw ∧ e'.qw = e.qw := by
  cases h with
  | register rd v => exact ⟨e.setX_pw rd v, e.setX_qw rd v⟩
  | raised c info => exact ⟨e.raise_pw c info, e.raise_qw c info⟩
  | schedule key h => exact ⟨rfl, rfl⟩
  | block a b => exact ⟨rfl, rfl⟩

/-- No host operation changes `PW` or `QW`, reset included. -/
theorem HostEffect.keeps_constants {e e' : Engine W} {op : HostOp W} (h : HostEffect e op e') :
    e'.pw = e.pw ∧ e'.qw = e.qw := by
  cases h with
  | unchanged _ _ => exact ⟨rfl, rfl⟩
  | raised _ _ c info => exact ⟨e.raise_pw c info, e.raise_qw c info⟩
  | stored addr v r => exact ⟨e.store_pw r v, e.store_qw r v⟩
  | command _ _ _ _ hcmd => exact hcmd.keeps_constants
  | reset => exact ⟨Engine.reset_pw _ _, Engine.reset_qw _ _⟩

/-! ## What a step returns to the host (20_memory.md R52, R53) -/

/-- A host write answers a next state and returns nothing to the host, a command inside it included. -/
theorem step_write_returns_nothing (e : Engine W) (addr : BitVec 10) (v : Bus W) (p : List (HostOp W))
    (o : List (Bus W)) : ∃ e', step ⟨W, e, .write addr v :: p, o⟩ = .next ⟨W, e', p, o⟩ := by
  obtain ⟨e', hstep, -⟩ := State.hostWrite_effect e p o addr v
  exact ⟨e', by rw [step_write, hstep]⟩

/-! ## The obligations -/

/-- Settles O49: the idle step changes nothing, and every effect of a host operation keeps `PW` and `QW`. -/
theorem instanceNeverChanges : Obligations.InstanceNeverChanges := by
  unfold Obligations.InstanceNeverChanges
  rintro ⟨W, e, pending, o⟩ s' h
  cases pending with
  | nil =>
    rw [step_idle] at h
    cases h
    exact ⟨rfl, rfl, rfl⟩
  | cons op p =>
    obtain ⟨e', o', hstep, heffect⟩ := step_effect e op p o
    obtain ⟨hpw, hqw⟩ := heffect.keeps_constants
    rw [hstep] at h
    cases h
    exact ⟨rfl, congrArg BitVec.toNat hpw, congrArg BitVec.toNat hqw⟩

/-- Settles O50, by the kind of the host operation at the front of the list. -/
theorem hostOperationsInIssueOrder : Obligations.HostOperationsInIssueOrder := by
  unfold Obligations.HostOperationsInIssueOrder
  refine fun W e o => ⟨step_idle e o, fun op p => ?_⟩
  cases op with
  | read addr =>
    exact ⟨_, _, step_read e addr p o, fun h => absurd rfl (h addr), fun _ _ => ⟨_, rfl⟩⟩
  | write addr v =>
    obtain ⟨e', hstep⟩ := step_write_returns_nothing e addr v p o
    exact ⟨e', o, hstep, fun _ => rfl, nofun⟩
  | reset => exact ⟨_, o, step_reset e p o, fun _ => rfl, nofun⟩

/-- Settles O18: the sizes at the four widths. -/
theorem instanceAndScheduleSizes : Obligations.InstanceAndScheduleSizes := by
  unfold Obligations.InstanceAndScheduleSizes
  exact ⟨fun _ => ⟨rfl, rfl⟩, Width.ofBytes_eq_some_iff, Width.ofBytes_eq_none_iff, rfl, rfl, rfl, rfl, rfl,
    rfl, fun _ => rfl, Config.keyWords_eq_bytes⟩

/-- Settles O38: one read-after-write law serves `S` and `K`. -/
theorem memoryReadsWhatWasWritten : Obligations.MemoryReadsWhatWasWritten := by
  unfold Obligations.MemoryReadsWhatWasWritten
  exact fun W m n j k v b => ⟨Memory.read_write m k v j, Memory.read_write n k b j⟩

end Sys2Proof.Machine

end

section
/-! SUPPORT. The proofs of the state family (10_state.md): the invariant of the machine, what no command
changes, the bits of STATUS and CONFIG. -/

namespace Sys2Proof.Machine

variable {W : Width}

/-! ## The invariant, read off the engine alone -/

/-- `Safety.Inv` with its parts named: it speaks of the engine only, never of the host's lists. -/
structure EngineInv (e : Engine W) : Prop where
  /-- `K` in canonical form within its size (10_state.md R33). -/
  keyWf : Memory.wf Config.kmax e.key = true
  /-- `S` in canonical form within its size (R34). -/
  subWf : Memory.wf Config.tmax e.sub = true
  /-- CAUSE and FINFO are 0 while FAULT is 0 (R26, R27). -/
  clear : e.fault = false → e.cause = 0 ∧ e.finfo = 0
  /-- CAUSE is one of the codes of 60_exceptions.md R181 while FAULT is 1. -/
  coded : e.fault = true → 1 ≤ e.cause.toNat ∧ e.cause.toNat ≤ 7

theorem inv_iff_engineInv (s : State) : Safety.Inv s ↔ EngineInv s.engine :=
  ⟨fun ⟨hkey, hsub, hclear, hcoded⟩ => ⟨hkey, hsub, hclear, hcoded⟩,
    fun h => ⟨h.keyWf, h.subWf, h.clear, h.coded⟩⟩

theorem Cause.code_bounds (c : Cause) : 1 ≤ c.code.toNat ∧ c.code.toNat ≤ 7 := by
  cases c <;> decide

/-- The schedule of every round count fits `S` (10_state.md R34): `2 * 255 + 1 = 511`. -/
theorem subkeyCount_le_tmax (r : BitVec 8) : subkeyCount r.toNat ≤ Config.tmax := by
  have hr : r.toNat < 2 ^ 8 := r.isLt
  simp only [subkeyCount, Config.tmax, Config.rmax]
  omega

section
variable {e : Engine W} (h : EngineInv e)
include h

theorem EngineInv.setX (r : Reg) (v : Word W) : EngineInv (e.setX r v) := by
  cases r <;> exact { h with }

theorem EngineInv.raise (c : Cause) (info : BitVec 32) : EngineInv (e.raise c info) := by
  cases hf : e.fault with
  | true => rwa [Engine.raise_of_halted hf]
  | false =>
    rw [Engine.raise_of_running hf]
    exact { h with clear := nofun, coded := fun _ => c.code_bounds }

theorem EngineInv.store (r : HostReg) (v : Bus W) : EngineInv (e.store r v) := by
  cases r with
  | x i => exact h.setX i _
  | key k => exact { h with keyWf := Memory.wf_write h.keyWf k.isLt _ }
  | subkey k => exact { h with subWf := Memory.wf_write h.subWf k.isLt _ }
  | _ => exact { h with }

theorem EngineInv.commandEffect {e' : Engine W} (heffect : CommandEffect e e') : EngineInv e' := by
  cases heffect with
  | register rd v => exact h.setX rd v
  | raised c info => exact h.raise c info
  | schedule key _ =>
    have hfits : 0 + (expandKey e.pw e.qw key e.rounds.toNat).toList.length ≤ Config.tmax := by
      simpa using subkeyCount_le_tmax e.rounds
    exact { h with subWf := Memory.wf_writeFrom h.subWf hfits }
  | block a b => exact { h with }

end

theorem EngineInv.reset (pw qw : Word W) : EngineInv (Engine.reset pw qw) :=
  ⟨Memory.wf_nil _, Memory.wf_nil _, fun _ => ⟨rfl, rfl⟩, nofun⟩

/-- The invariant is kept by every host operation, the command inside a write included. -/
theorem EngineInv.hostEffect {e e' : Engine W} {op : HostOp W} (h : EngineInv e)
    (heffect : HostEffect e op e') : EngineInv e' := by
  cases heffect with
  | unchanged _ _ => exact h
  | raised _ _ c info => exact h.raise c info
  | stored _ v r => exact h.store r v
  | command _ _ _ _ hcommand => exact h.commandEffect hcommand
  | reset => exact .reset _ _

/-! ## What commands leave alone (10_state.md R38) -/

@[simp] theorem Engine.raise_getX (e : Engine W) (c : Cause) (info : BitVec 32) (r : Reg) :
    (e.raise c info).getX r = e.getX r := by
  unfold Engine.raise; split <;> cases r <;> rfl

/-- No command changes the key or the round count. -/
theorem CommandEffect.keeps_key_and_rounds {e e' : Engine W} (h : CommandEffect e e') :
    e'.key = e.key ∧ e'.klen = e.klen ∧ e'.rounds = e.rounds := by
  cases h with
  | register rd v => exact ⟨e.setX_key rd v, e.setX_klen rd v, e.setX_rounds rd v⟩
  | raised c info => exact ⟨e.raise_key c info, e.raise_klen c info, e.raise_rounds c info⟩
  | schedule key _ => exact ⟨rfl, rfl, rfl⟩
  | block a b => exact ⟨rfl, rfl, rfl⟩

/-- KEYEXP changes no `X` (42_key_schedule.md R151), when it faults as when it completes. -/
theorem Engine.keyexp_getX (e : Engine W) (r : Reg) : e.keyexp.getX r = e.getX r := by
  unfold Engine.keyexp
  split
  · exact e.raise_getX _ _ r
  · cases r <;> rfl

/-- ENC and DEC take a fault or replace the block, and do nothing else (43_cipher.md R161, R173). -/
theorem Engine.cipher_cases (e : Engine W) (cw : BitVec 32)
    (f : (r : Nat) → 0 < r → Vector (Word W) (subkeyCount r) → Block W.bits → Block W.bits) :
    (∃ c info, e.cipher cw f = e.raise c info) ∨
      ∃ a b, e.cipher cw f = { e with x0 := a, x1 := b } := by
  unfold Engine.cipher
  split
  · exact .inl ⟨_, _, rfl⟩
  · split
    · exact .inl ⟨_, _, rfl⟩
    · split
      · exact .inl ⟨_, _, rfl⟩
      · exact .inr ⟨_, _, rfl⟩

theorem Engine.cipher_keeps_schedule (e : Engine W) (cw : BitVec 32)
    (f : (r : Nat) → 0 < r → Vector (Word W) (subkeyCount r) → Block W.bits → Block W.bits) :
    (e.cipher cw f).sub = e.sub ∧ (e.cipher cw f).slen = e.slen := by
  obtain ⟨c, info, h⟩ | ⟨a, b, h⟩ := e.cipher_cases cw f <;> simp [h]

theorem Engine.cipher_keeps_scratch (e : Engine W) (cw : BitVec 32)
    (f : (r : Nat) → 0 < r → Vector (Word W) (subkeyCount r) → Block W.bits → Block W.bits) :
    (e.cipher cw f).x2 = e.x2 ∧ (e.cipher cw f).x3 = e.x3 := by
  obtain ⟨c, info, h⟩ | ⟨a, b, h⟩ := e.cipher_cases cw f <;> simp [h]

/-- Every command but KEYEXP keeps the schedule (10_state.md R38 (b)). -/
theorem exec_keeps_schedule {i : Instr} (hi : i ≠ .keyexp) {e e' : Engine W} {p : List (HostOp W)}
    {o : List (Bus W)} (h : exec i ⟨W, e, p, o⟩ = .next ⟨W, e', p, o⟩) :
    e'.sub = e.sub ∧ e'.slen = e.slen := by
  cases i with
  | keyexp => exact absurd rfl hi
  | enc => cases h; exact e.cipher_keeps_schedule _ _
  | dec => cases h; exact e.cipher_keeps_schedule _ _
  | _ => cases h; exact ⟨e.setX_sub _ _, e.setX_slen _ _⟩

/-! ## The bits of STATUS and CONFIG (10_state.md R26, R28) -/

theorem getLsbD_setWidth_of_le {m n : Nat} (h : m ≤ n) (x : BitVec m) (k : Nat) :
    (x.setWidth n).getLsbD k = x.getLsbD k := by
  rw [BitVec.getLsbD_setWidth]
  by_cases hk : k < n
  · simp [hk]
  · simp [hk, BitVec.getLsbD_of_ge x k (by omega)]

/-- STATUS bit by bit: FAULT, three zeros, CAUSE. -/
theorem Engine.statusWord_getLsbD (e : Engine W) (k : Nat) :
    e.statusWord.getLsbD k = if k = 0 then e.fault else decide (4 ≤ k) && e.cause.getLsbD (k - 4) := by
  have h8 : 4 + 2 + 1 + 1 ≤ W.dw := Nat.le_trans (by decide) W.thirtyTwo_le_dw
  rw [Engine.statusWord, getLsbD_setWidth_of_le h8]
  simp only [BitVec.getLsbD_append]
  match k with
  | 0 | 1 | 2 | 3 => simp
  | k + 4 => simp

/-- CONFIG holds nothing above its three fields. -/
theorem configWord_getLsbD_of_ge (W : Width) {k : Nat} (h : 24 ≤ k) : (configWord W).getLsbD k = false := by
  have h24 : 8 + 8 + 4 + 4 ≤ W.dw := Nat.le_trans (by decide) W.thirtyTwo_le_dw
  rw [configWord, getLsbD_setWidth_of_le h24]
  exact BitVec.getLsbD_of_ge _ _ h

/-! ## The obligations -/

/-- Settles O47: the idle step changes nothing, and every effect of a host operation keeps the invariant. -/
theorem stepKeepsInvariant : Obligations.StepKeepsInvariant := by
  unfold Obligations.StepKeepsInvariant
  rintro ⟨W, e, pending, o⟩ s' hinv h
  cases pending with
  | nil =>
    rw [step_idle] at h
    cases h
    exact hinv
  | cons op p =>
    obtain ⟨e', o', hstep, heffect⟩ := step_effect e op p o
    rw [inv_iff_engineInv] at hinv
    rw [hstep] at h
    cases h
    exact (inv_iff_engineInv _).2 (hinv.hostEffect heffect)

/-- Settles O48: at every width, PW and QW, and so for `State.reset`. -/
theorem resetHasInvariant : Obligations.ResetHasInvariant := by
  unfold Obligations.ResetHasInvariant
  have hreset (W : Width) (pw qw : Word W) : Safety.Inv (State.resetOf W pw qw) :=
    (inv_iff_engineInv _).2 (.reset pw qw)
  exact ⟨hreset, hreset _ _ _⟩

/-- Settles O35: the effect of any command for `K`, KLEN, ROUNDS, PW and QW, the frames of KEYEXP and of the
cipher for the rest. -/
theorem commandsKeepKeyAndRoundCount : Obligations.CommandsKeepKeyAndRoundCount := by
  unfold Obligations.CommandsKeepKeyAndRoundCount
  intro W e e' p o i h
  obtain ⟨e₁, hexec, heffect⟩ := exec_effect i e p o
  obtain rfl : e₁ = e' := by
    rw [hexec] at h
    cases h
    rfl
  obtain ⟨hkey, hklen, hrounds⟩ := heffect.keeps_key_and_rounds
  obtain ⟨hpw, hqw⟩ := heffect.keeps_constants
  refine ⟨fun k => by rw [hkey], hklen, hrounds, hpw, hqw, fun hi => ?schedule, ?registers, ?scratch⟩
  case schedule =>
    obtain ⟨hsub, hslen⟩ := exec_keeps_schedule hi h
    exact ⟨fun k => by rw [hsub], hslen⟩
  case registers =>
    rintro rfl r
    cases h
    exact e.keyexp_getX r
  case scratch =>
    rintro (rfl | rfl) <;>
    · cases h
      exact e.cipher_keeps_scratch _ _

/-- Settles O41: STATUS from its bits, the fields of CONFIG by their values at the four widths. -/
theorem statusAndConfigLayout : Obligations.StatusAndConfigLayout := by
  unfold Obligations.StatusAndConfigLayout
  intro W e
  have hcause : e.statusWord.extractLsb' 4 4 = e.cause := by
    ext j hj
    simp [e.statusWord_getLsbD, BitVec.getLsbD_eq_getElem hj]
  have habove (k : Nat) (hk : 8 ≤ k) : e.statusWord.getLsbD k = false := by
    rw [e.statusWord_getLsbD, if_neg (by omega), BitVec.getLsbD_of_ge _ _ (by omega), Bool.and_false]
  have hreserved : e.statusWord.extractLsb' 2 2 = 0#2 := by
    ext j hj
    have hlow : 2 + j ≠ 0 ∧ ¬ 4 ≤ 2 + j := by omega
    simp [e.statusWord_getLsbD, hlow]
  refine ⟨?_, ?_, hreserved, hcause, habove, ?_, ?_, ?_, ?_, fun k hk => configWord_getLsbD_of_ge W hk⟩
  · simp [e.statusWord_getLsbD]
  · simp [e.statusWord_getLsbD]
  all_goals cases W <;> decide

end Sys2Proof.Machine

end

section
/-! SUPPORT. The proofs of the host register space family (20_memory.md): the address map, what a host read
finds, what a host write does, and a read after a write. -/

namespace Sys2Proof.Machine

variable {W : Width}

/-! ## The address map (20_memory.md R56) -/

theorem HostReg.addr_key_toNat (k : Fin Config.kmax) : (HostReg.key k).addr.toNat = 0x100 + k := by
  have hk : (k : Nat) < 255 := k.isLt
  simp only [HostReg.addr, BitVec.toNat_ofNat]
  omega

theorem HostReg.addr_subkey_toNat (k : Fin Config.tmax) :
    (HostReg.subkey k).addr.toNat = 0x200 + k := by
  have hk : (k : Nat) < 511 := k.isLt
  simp only [HostReg.addr, BitVec.toNat_ofNat]
  omega

/-- The addresses of the four word registers. -/
theorem HostReg.exists_x_addr {a : BitVec 10} (hlow : 0x010 ≤ a.toNat) (hhigh : a.toNat ≤ 0x013) :
    ∃ i, (HostReg.x i).addr = a := by
  have h : a.toNat = 0x010 ∨ a.toNat = 0x011 ∨ a.toNat = 0x012 ∨ a.toNat = 0x013 := by omega
  obtain h | h | h | h := h
  · exact ⟨.x0, BitVec.eq_of_toNat_eq h.symm⟩
  · exact ⟨.x1, BitVec.eq_of_toNat_eq h.symm⟩
  · exact ⟨.x2, BitVec.eq_of_toNat_eq h.symm⟩
  · exact ⟨.x3, BitVec.eq_of_toNat_eq h.symm⟩

/-- The addresses of the key byte memory. -/
theorem HostReg.exists_key_addr {a : BitVec 10} (hlow : 0x100 ≤ a.toNat) (hhigh : a.toNat ≤ 0x1FE) :
    ∃ k, (HostReg.key k).addr = a := by
  have hk : a.toNat - 0x100 < 255 := by omega
  refine ⟨⟨a.toNat - 0x100, hk⟩, BitVec.eq_of_toNat_eq ?_⟩
  rw [HostReg.addr_key_toNat]
  exact Nat.add_sub_cancel' hlow

/-- The addresses of the subkey memory. -/
theorem HostReg.exists_subkey_addr {a : BitVec 10} (hlow : 0x200 ≤ a.toNat) (hhigh : a.toNat ≤ 0x3FE) :
    ∃ k, (HostReg.subkey k).addr = a := by
  have hk : a.toNat - 0x200 < 511 := by omega
  refine ⟨⟨a.toNat - 0x200, hk⟩, BitVec.eq_of_toNat_eq ?_⟩
  rw [HostReg.addr_subkey_toNat]
  exact Nat.add_sub_cancel' hlow

/-- A register found at an address has that address. -/
theorem HostReg.addr_of_ofAddr {a : BitVec 10} {r : HostReg} (h : HostReg.ofAddr a = some r) :
    r.addr = a := by
  apply BitVec.eq_of_toNat_eq
  unfold HostReg.ofAddr at h
  split at h
  case h_14 =>
    split_ifs at h
    · cases h
      rw [HostReg.addr_key_toNat]
      exact Nat.add_sub_cancel' (by omega)
    · cases h
      rw [HostReg.addr_subkey_toNat]
      exact Nat.add_sub_cancel' (by omega)
  all_goals
    next ha =>
      cases h
      exact ha.symm

/-- Every register is found at its address. -/
@[simp] theorem HostReg.ofAddr_addr (r : HostReg) : HostReg.ofAddr r.addr = some r := by
  cases r with
  | x i => cases i <;> rfl
  | key k =>
    have ha := HostReg.addr_key_toNat k
    have hk : (k : Nat) < 255 := k.isLt
    unfold HostReg.ofAddr
    split
    case h_14 => simp [ha]
    all_goals omega
  | subkey k =>
    have ha := HostReg.addr_subkey_toNat k
    have hk : (k : Nat) < 511 := k.isLt
    have hlow : 0x100 ≤ 0x200 + (k : Nat) := by omega
    have hkey : ¬ 0x200 + (k : Nat) - 0x100 < Config.kmax := Nat.not_lt.2 (by omega : 255 ≤ _)
    unfold HostReg.ofAddr
    split
    case h_14 => simp [ha, hlow, hkey]
    all_goals omega
  | _ => rfl

/-- The unmapped addresses are those R56 names. -/
theorem HostReg.ofAddr_eq_none_iff (a : BitVec 10) : HostReg.ofAddr a = none ↔ Spec.unmapped a := by
  have ha : a.toNat < 1024 := a.isLt
  unfold HostReg.ofAddr Spec.unmapped
  split
  case h_14 =>
    have hkmax : Config.kmax = 255 := rfl
    have htmax : Config.tmax = 511 := rfl
    split_ifs
    · refine iff_of_true rfl ?_
      -- `split` leaves the excluded literals as implications, which `omega` does not read
      simp only [imp_false] at *
      omega
    · exact iff_of_false not_false (by omega)
    · exact iff_of_true rfl (by omega)
    · exact iff_of_false not_false (by omega)
    · exact iff_of_true rfl (by omega)
  all_goals exact iff_of_false nofun (by omega)

theorem HostReg.ofAddr_of_unmapped {a : BitVec 10} (h : Spec.unmapped a) : HostReg.ofAddr a = none :=
  (HostReg.ofAddr_eq_none_iff a).2 h

/-! ## Fault entry in the words of the statements (60_exceptions.md R190, R191) -/

theorem Engine.raise_eq_recordFault (e : Engine W) (c : Cause) (info : BitVec 32) :
    e.raise c info = Spec.recordFault e c.code info.toNat := by
  simp only [Engine.raise, Spec.recordFault, BitVec.ofNat_toNat]

/-- A fault of a host access carries the address. -/
theorem Engine.raiseAt_eq_recordFault (e : Engine W) (c : Cause) (a : BitVec 10) :
    e.raiseAt c a = Spec.recordFault e c.code a.toNat := by
  rw [Engine.raiseAt_eq, Engine.raise_eq_recordFault, BitVec.toNat_setWidth_of_le (by decide)]

/-! ## What a host read finds (20_memory.md R52) -/

/-- What a read of an entry of `K` or `S` finds. -/
def entryValue {n : Nat} (W : Width) : Option (BitVec n) → Except Cause (Bus W)
  | none => .error .uninitRead
  | some v => .ok (v.setWidth W.dw)

/-- What a read of a mapped register finds: the value it returns, or the fault it takes. -/
def Engine.regValue (e : Engine W) : HostReg → Except Cause (Bus W)
  | .cmd => .error .accessType
  | .status => .ok e.statusWord
  | .finfo => .ok e.finfo
  | .config => .ok (configWord W)
  | .rounds => .ok (e.rounds.setWidth W.dw)
  | .klen => .ok (e.klen.setWidth W.dw)
  | .slen => .ok (e.slen.setWidth W.dw)
  | .pw => .ok (e.pw.setWidth W.dw)
  | .qw => .ok (e.qw.setWidth W.dw)
  | .x i => .ok ((e.getX i).setWidth W.dw)
  | .key k => entryValue W (Memory.read e.key k)
  | .subkey k => entryValue W (Memory.read e.sub k)

/-- What a read of an address finds. -/
def Engine.portValue (e : Engine W) (a : BitVec 10) : Except Cause (Bus W) :=
  match HostReg.ofAddr a with
  | none => .error .badAddress
  | some r => e.regValue r

/-- How a read answers what it finds: a value changes nothing, a fault returns 0. -/
def Engine.answer (e : Engine W) (a : BitVec 10) : Except Cause (Bus W) → Engine W × Bus W
  | .ok v => (e, v)
  | .error c => (e.raiseAt c a, 0)

theorem Engine.portValue_of_ofAddr_eq_some (e : Engine W) {a : BitVec 10} {r : HostReg}
    (h : HostReg.ofAddr a = some r) : e.portValue a = e.regValue r := by
  simp only [Engine.portValue, h]

theorem Engine.portValue_of_ofAddr_eq_none (e : Engine W) {a : BitVec 10} (h : HostReg.ofAddr a = none) :
    e.portValue a = .error .badAddress := by
  simp only [Engine.portValue, h]

@[simp] theorem Engine.portValue_addr (e : Engine W) (r : HostReg) :
    e.portValue r.addr = e.regValue r :=
  e.portValue_of_ofAddr_eq_some (HostReg.ofAddr_addr r)

theorem Engine.readEntry_eq_answer {n : Nat} (e : Engine W) (a : BitVec 10) (entry : Option (BitVec n)) :
    e.readEntry a entry = e.answer a (entryValue W entry) := by
  cases entry <;> rfl

/-- A host read answers what stands at its address. -/
theorem Engine.hostRead_eq_answer (e : Engine W) (a : BitVec 10) :
    e.hostRead a = e.answer a (e.portValue a) := by
  unfold Engine.hostRead Engine.portValue
  cases HostReg.ofAddr a with
  | none => rfl
  | some r =>
    cases r with
    | key k => exact e.readEntry_eq_answer a _
    | subkey k => exact e.readEntry_eq_answer a _
    | _ => rfl

/-- A read that finds a value returns it and changes nothing. -/
theorem step_read_of_value {e : Engine W} {a : BitVec 10} {v : Bus W} (h : e.portValue a = .ok v)
    (p : List (HostOp W)) (o : List (Bus W)) :
    step ⟨W, e, .read a :: p, o⟩ = .next ⟨W, e, p, o ++ [v]⟩ := by
  rw [step_read, Engine.hostRead_eq_answer, h]
  rfl

/-- A read that takes a fault records it with the address and returns 0. -/
theorem step_read_of_fault {e : Engine W} {a : BitVec 10} {c : Cause} (h : e.portValue a = .error c)
    (p : List (HostOp W)) (o : List (Bus W)) :
    step ⟨W, e, .read a :: p, o⟩ = .next ⟨W, Spec.recordFault e c.code a.toNat, p, o ++ [0]⟩ := by
  rw [step_read, Engine.hostRead_eq_answer, h, ← Engine.raiseAt_eq_recordFault]
  rfl

theorem step_read_reg {e : Engine W} (r : HostReg) {v : Bus W} (h : e.regValue r = .ok v)
    (p : List (HostOp W)) (o : List (Bus W)) :
    step ⟨W, e, .read r.addr :: p, o⟩ = .next ⟨W, e, p, o ++ [v]⟩ :=
  step_read_of_value (by rw [Engine.portValue_addr, h]) p o

theorem step_read_reg_fault {e : Engine W} (r : HostReg) {c : Cause} (h : e.regValue r = .error c)
    (p : List (HostOp W)) (o : List (Bus W)) :
    step ⟨W, e, .read r.addr :: p, o⟩ =
      .next ⟨W, Spec.recordFault e c.code r.addr.toNat, p, o ++ [0]⟩ :=
  step_read_of_fault (by rw [Engine.portValue_addr, h]) p o

/-! ## A host write, case by case (20_memory.md R53) -/

theorem step_write_of_halted {e : Engine W} (h : e.fault = true) (a : BitVec 10) (v : Bus W)
    (p : List (HostOp W)) (o : List (Bus W)) :
    step ⟨W, e, .write a v :: p, o⟩ = .next ⟨W, e, p, o⟩ := by
  simp only [step_write, State.hostWrite, h, if_true]

section
variable {e : Engine W} (hrun : e.fault = false)
include hrun

theorem step_write_unmapped {a : BitVec 10} (ha : Spec.unmapped a) (v : Bus W) (p : List (HostOp W))
    (o : List (Bus W)) :
    step ⟨W, e, .write a v :: p, o⟩ = .next ⟨W, Spec.recordFault e 2#4 a.toNat, p, o⟩ := by
  simp [step_write, State.hostWrite, hrun, HostReg.ofAddr_of_unmapped ha, - Engine.raiseAt_eq,
    Engine.raiseAt_eq_recordFault, Cause.code]

theorem step_write_readOnly {r : HostReg} (hro : r.readOnly = true) (v : Bus W) (p : List (HostOp W))
    (o : List (Bus W)) :
    step ⟨W, e, .write r.addr v :: p, o⟩ =
      .next ⟨W, Spec.recordFault e 3#4 r.addr.toNat, p, o⟩ := by
  simp [step_write, State.hostWrite, hrun, hro, - Engine.raiseAt_eq,
    Engine.raiseAt_eq_recordFault, Cause.code]

theorem step_write_badValue {r : HostReg} (hro : r.readOnly = false) {v : Bus W}
    (hv : 2 ^ r.width W ≤ v.toNat) (p : List (HostOp W)) (o : List (Bus W)) :
    step ⟨W, e, .write r.addr v :: p, o⟩ =
      .next ⟨W, Spec.recordFault e 4#4 r.addr.toNat, p, o⟩ := by
  simp [step_write, State.hostWrite, hrun, hro, hv, - Engine.raiseAt_eq,
    Engine.raiseAt_eq_recordFault, Cause.code]

theorem step_write_store {r : HostReg} (hro : r.readOnly = false) (hcmd : r ≠ .cmd) {v : Bus W}
    (hv : v.toNat < 2 ^ r.width W) (p : List (HostOp W)) (o : List (Bus W)) :
    step ⟨W, e, .write r.addr v :: p, o⟩ = .next ⟨W, e.store r v, p, o⟩ := by
  simp [step_write, State.hostWrite, hrun, hro, hcmd, Nat.not_le.2 hv]

theorem step_write_cmd {v : Bus W} (hv : v.toNat < 2 ^ 32) (p : List (HostOp W)) (o : List (Bus W)) :
    step ⟨W, e, .write HostReg.cmd.addr v :: p, o⟩ = State.command ⟨W, e, p, o⟩ (v.setWidth 32) := by
  have hfit : ¬ 2 ^ HostReg.cmd.width W ≤ v.toNat := Nat.not_le.2 hv
  simp [step_write, State.hostWrite, hrun, HostReg.readOnly, hfit]

end

theorem State.command_of_illegal {cw : BitVec 32} {r : Illegal} (h : decode cw = .error r) (e : Engine W)
    (p : List (HostOp W)) (o : List (Bus W)) :
    State.command ⟨W, e, p, o⟩ cw = .next ⟨W, Spec.recordFault e 1#4 cw.toNat, p, o⟩ := by
  simp only [State.command, h, Engine.raise_eq_recordFault, Cause.code, State.withEngine_mk]

theorem State.command_of_legal {cw : BitVec 32} {i : Instr} (h : decode cw = .ok i) (s : State) :
    s.command cw = exec i s := by
  simp only [State.command, h]

/-! ## A read after a write (20_memory.md R55, R60) -/

theorem setWidth_setWidth_of_toNat_lt {m n : Nat} {v : BitVec n} (h : v.toNat < 2 ^ m) :
    (v.setWidth m).setWidth n = v := by
  apply BitVec.eq_of_toNat_eq
  simp [Nat.mod_eq_of_lt h]

/-- A register holds the value stored in it. -/
theorem Engine.regValue_store_same (e : Engine W) {r : HostReg} (hro : r.readOnly = false)
    (hcmd : r ≠ .cmd) {v : Bus W} (hv : v.toNat < 2 ^ r.width W) :
    (e.store r v).regValue r = .ok v := by
  have hwidth := setWidth_setWidth_of_toNat_lt hv
  cases r with
  | cmd => exact absurd rfl hcmd
  | rounds => exact congrArg _ hwidth
  | klen => exact congrArg _ hwidth
  | slen => exact congrArg _ hwidth
  | x i =>
    rw [Engine.store_x, Engine.regValue, Engine.getX_setX_same]
    exact congrArg _ hwidth
  | key k =>
    rw [Engine.store_key, Engine.regValue, Memory.read_write_same]
    exact congrArg _ hwidth
  | subkey k =>
    rw [Engine.store_subkey, Engine.regValue, Memory.read_write_same]
    exact congrArg _ hwidth
  | _ => cases hro

/-- A store leaves every other register as it is. -/
theorem Engine.regValue_store_of_ne (e : Engine W) {r r' : HostReg} (h : r' ≠ r) (v : Bus W) :
    (e.store r v).regValue r' = e.regValue r' := by
  cases r with
  | rounds =>
    cases r' with
    | rounds => exact absurd rfl h
    | _ => rfl
  | klen =>
    cases r' with
    | klen => exact absurd rfl h
    | _ => rfl
  | slen =>
    cases r' with
    | slen => exact absurd rfl h
    | _ => rfl
  | x i =>
    cases r' with
    | x i' =>
      have hi : i' ≠ i := fun hi => h (congrArg HostReg.x hi)
      rw [Engine.store_x, Engine.regValue, Engine.getX_setX_of_ne e hi, Engine.regValue]
    | _ => simp [Engine.regValue, Engine.statusWord]
  | key k =>
    cases r' with
    | key k' =>
      have hk : (k' : Nat) ≠ k := fun hk => h (congrArg HostReg.key (Fin.ext hk))
      rw [Engine.store_key, Engine.regValue, Memory.read_write_of_ne _ hk, Engine.regValue]
    | _ => rfl
  | subkey k =>
    cases r' with
    | subkey k' =>
      have hk : (k' : Nat) ≠ k := fun hk => h (congrArg HostReg.subkey (Fin.ext hk))
      rw [Engine.store_subkey, Engine.regValue, Memory.read_write_of_ne _ hk, Engine.regValue]
    | _ => rfl
  | _ => rfl

/-- A store in a register is seen at no other address. -/
theorem Engine.hostRead_store_of_ne (e : Engine W) {r : HostReg} {a : BitVec 10} (h : a ≠ r.addr)
    (v : Bus W) : ((e.store r v).hostRead a).2 = (e.hostRead a).2 := by
  have hport : (e.store r v).portValue a = e.portValue a := by
    cases ha : HostReg.ofAddr a with
    | none => simp only [Engine.portValue_of_ofAddr_eq_none _ ha]
    | some r' =>
      have hr : r' ≠ r := by
        rintro rfl
        exact h (HostReg.addr_of_ofAddr ha).symm
      simp only [Engine.portValue_of_ofAddr_eq_some _ ha, e.regValue_store_of_ne hr]
  rw [Engine.hostRead_eq_answer, Engine.hostRead_eq_answer, hport]
  cases e.portValue a <;> rfl

/-! ## The obligations -/

/-- Settles O40: an address is looked up to the register that has it, and to none where R56 names it. -/
theorem addressMapIsR56 : Obligations.AddressMapIsR56 := by
  unfold Obligations.AddressMapIsR56
  exact ⟨HostReg.ofAddr_addr, fun _ _ => HostReg.addr_of_ofAddr, HostReg.ofAddr_eq_none_iff⟩

/-- Settles O39: the write stores, and what is stored is found at the register's address alone. -/
theorem hostReadsWhatItWrote : Obligations.HostReadsWhatItWrote := by
  unfold Obligations.HostReadsWhatItWrote
  exact fun W e p o r v hrun hro hcmd hv =>
    ⟨e.store r v, step_write_store hrun hro hcmd hv p o,
      step_read_reg r (e.regValue_store_same hro hcmd hv) p o, fun a ha => e.hostRead_store_of_ne ha v⟩

/-- Settles O36: what stands at each address, and how a read answers it. -/
theorem hostReadCaseByCase : Obligations.HostReadCaseByCase := by
  unfold Obligations.HostReadCaseByCase
  intro W e p o
  simp only [BitVec.ofNat_toNat]
  refine ⟨?unmapped, step_read_reg_fault .cmd rfl p o, ?keyNone, ?subNone, ?keySome, ?subSome,
    step_read_reg .status rfl p o, step_read_reg .finfo rfl p o, step_read_reg .config rfl p o,
    step_read_reg .rounds rfl p o, step_read_reg .klen rfl p o, step_read_reg .slen rfl p o,
    step_read_reg .pw rfl p o, step_read_reg .qw rfl p o, step_read_reg (.x .x0) rfl p o,
    step_read_reg (.x .x1) rfl p o, step_read_reg (.x .x2) rfl p o, step_read_reg (.x .x3) rfl p o⟩
  case unmapped =>
    intro a ha
    exact step_read_of_fault (e.portValue_of_ofAddr_eq_none (HostReg.ofAddr_of_unmapped ha)) p o
  case keyNone =>
    intro k hk hnone
    have h := step_read_reg_fault (.key ⟨k, hk⟩) (congrArg (entryValue W) hnone) p o
    rwa [HostReg.addr_key_toNat] at h
  case subNone =>
    intro k hk hnone
    have h := step_read_reg_fault (.subkey ⟨k, hk⟩) (congrArg (entryValue W) hnone) p o
    rwa [HostReg.addr_subkey_toNat] at h
  case keySome =>
    exact fun k hk v hv => step_read_reg (.key ⟨k, hk⟩) (congrArg (entryValue W) hv) p o
  case subSome =>
    exact fun k hk v hv => step_read_reg (.subkey ⟨k, hk⟩) (congrArg (entryValue W) hv) p o

/-- Settles O37: the equation of each case of a host write, at the addresses of its registers. -/
theorem hostWriteCaseByCase : Obligations.HostWriteCaseByCase := by
  unfold Obligations.HostWriteCaseByCase
  intro W e p o v
  simp only [BitVec.ofNat_toNat]
  refine ⟨fun hhalt a => step_write_of_halted hhalt a v p o, fun hrun => ⟨?unmapped, ?readOnly, ?badValue,
    ?command, ?eightBits, ?nineBits, ?word⟩⟩
  case unmapped => exact fun a ha => step_write_unmapped hrun ha v p o
  case readOnly =>
    rintro a (rfl | rfl | rfl | rfl | rfl)
    · exact step_write_readOnly (r := .status) hrun rfl v p o
    · exact step_write_readOnly (r := .finfo) hrun rfl v p o
    · exact step_write_readOnly (r := .config) hrun rfl v p o
    · exact step_write_readOnly (r := .pw) hrun rfl v p o
    · exact step_write_readOnly (r := .qw) hrun rfl v p o
  case badValue =>
    rintro a width (⟨rfl, rfl⟩ | ⟨rfl, rfl⟩ | ⟨rfl, rfl⟩ | ⟨rfl, rfl⟩ | ⟨hlow, hhigh, rfl⟩ |
      ⟨hlow, hhigh, rfl⟩ | ⟨hlow, hhigh, rfl⟩) hv
    · exact step_write_badValue (r := .cmd) hrun rfl hv p o
    · exact step_write_badValue (r := .rounds) hrun rfl hv p o
    · exact step_write_badValue (r := .klen) hrun rfl hv p o
    · exact step_write_badValue (r := .slen) hrun rfl hv p o
    · obtain ⟨i, rfl⟩ := HostReg.exists_x_addr hlow hhigh
      exact step_write_badValue (r := .x i) hrun rfl hv p o
    · obtain ⟨k, rfl⟩ := HostReg.exists_key_addr hlow hhigh
      exact step_write_badValue (r := .key k) hrun rfl hv p o
    · obtain ⟨k, rfl⟩ := HostReg.exists_subkey_addr hlow hhigh
      exact step_write_badValue (r := .subkey k) hrun rfl hv p o
  case command =>
    intro hv
    have hcw : (v.setWidth 32).toNat = v.toNat := by rw [BitVec.toNat_setWidth, Nat.mod_eq_of_lt hv]
    refine ⟨fun r hr => ?_, fun i hi => ?_⟩
    · rw [← hcw, ← State.command_of_illegal hr]
      exact step_write_cmd hrun hv p o
    · rw [← State.command_of_legal hi]
      exact step_write_cmd hrun hv p o
  case eightBits =>
    exact fun hv => ⟨step_write_store (r := .rounds) hrun rfl nofun hv p o,
      step_write_store (r := .klen) hrun rfl nofun hv p o,
      fun k hk => step_write_store (r := .key ⟨k, hk⟩) hrun rfl nofun hv p o⟩
  case nineBits => exact fun hv => step_write_store (r := .slen) hrun rfl nofun hv p o
  case word =>
    exact fun hv => ⟨step_write_store (r := .x .x0) hrun rfl nofun hv p o,
      step_write_store (r := .x .x1) hrun rfl nofun hv p o,
      step_write_store (r := .x .x2) hrun rfl nofun hv p o,
      step_write_store (r := .x .x3) hrun rfl nofun hv p o,
      fun k hk => step_write_store (r := .subkey ⟨k, hk⟩) hrun rfl nofun hv p o⟩

end Sys2Proof.Machine

end

section
/-! SUPPORT. The proofs of the encoding family (30_encoding.md): decode after encode and encode after decode,
the table of R76, illegal words, the command inside a `CMD` write, the assembler's expansions. -/

namespace Sys2Proof

/-! ## Decoding an encoded word, format by format (30_encoding.md R71, R72) -/

@[simp] theorem ifReservedZero_zero {n : Nat} (i : Instr) : ifReservedZero (0#n) i = .ok i := by
  simp [ifReservedZero]

theorem ifReservedZero_eq_ok_iff {n : Nat} {reserved : BitVec n} {i j : Instr} :
    ifReservedZero reserved i = .ok j ↔ reserved = 0#n ∧ i = j := by
  unfold ifReservedZero
  split <;> simp_all

/-! In this section `simp` moves a field through the concatenation one part at a time, for which the types
must keep the widths of the parts: hence `- Nat.reduceAdd`. -/

section
variable (op : BitVec 8) (rd rs1 rs2 : Reg) (n : Nat)

open BitVec (extractLsb'_append_eq_of_le extractLsb'_append_eq_of_add_le)

@[simp] theorem opField_encodeR : opField (encodeR op rd rs1 rs2) = op := by
  simp [opField, encodeR, extractLsb'_append_eq_of_le, - Nat.reduceAdd]

@[simp] theorem opField_encodeI : opField (encodeI op rd rs1 n) = op := by
  simp [opField, encodeI, extractLsb'_append_eq_of_le, - Nat.reduceAdd]

@[simp] theorem opField_encodeL16 : opField (encodeL16 op rd n) = op := by
  simp [opField, encodeL16, extractLsb'_append_eq_of_le, - Nat.reduceAdd]

@[simp] theorem opField_encodeL8 : opField (encodeL8 op rd n) = op := by
  simp [opField, encodeL8, extractLsb'_append_eq_of_le, - Nat.reduceAdd]

@[simp] theorem decodeR_encodeR (f : Reg → Reg → Reg → Instr) :
    decodeR (encodeR op rd rs1 rs2) f = .ok (f rd rs1 rs2) := by
  simp [decodeR, encodeR, rdField, rs1Field, rs2Field, extractLsb'_append_eq_of_le,
    extractLsb'_append_eq_of_add_le, - Nat.reduceAdd]

variable {n}

theorem decodeI_encodeI (hn : fitsImm16 n = true) (f : Reg → Reg → Nat → Instr) :
    decodeI (encodeI op rd rs1 n) f = .ok (f rd rs1 n) := by
  have hmod : n % 65536 = n := Nat.mod_eq_of_lt (by simpa [fitsImm16] using hn)
  simp [decodeI, encodeI, rdField, rs1Field, imm16Field, extractLsb'_append_eq_of_le,
    extractLsb'_append_eq_of_add_le, hmod, - Nat.reduceAdd]

theorem decodeL16_encodeL16 (hn : fitsImm16 n = true) (f : Reg → Nat → Instr) :
    decodeL16 (encodeL16 op rd n) f = .ok (f rd n) := by
  have hmod : n % 65536 = n := Nat.mod_eq_of_lt (by simpa [fitsImm16] using hn)
  simp [decodeL16, encodeL16, rdField, imm16Field, extractLsb'_append_eq_of_le,
    extractLsb'_append_eq_of_add_le, hmod, - Nat.reduceAdd]

theorem decodeL8_encodeL8 (hn : fitsImm8 n = true) (f : Reg → Nat → Instr) :
    decodeL8 (encodeL8 op rd n) f = .ok (f rd n) := by
  have hmod : n % 256 = n := Nat.mod_eq_of_lt (by simpa [fitsImm8] using hn)
  simp [decodeL8, encodeL8, rdField, imm8Field, extractLsb'_append_eq_of_le,
    extractLsb'_append_eq_of_add_le, hmod, - Nat.reduceAdd]

end

/-- Every well-formed command is read back from its word. -/
theorem decode_encode {i : Instr} (h : i.wellFormed = true) : decode (encode i) = .ok i := by
  cases i with
  | keyexp | enc | dec => rfl
  | ldi rd n => simp [decode, encode, decodeL16_encodeL16 _ _ h]
  | ldb rd n => simp [decode, encode, decodeL8_encodeL8 _ _ h]
  | shli rd rs1 n | shri rd rs1 n | rotli rd rs1 n | rotri rd rs1 n =>
    simp [decode, encode, decodeI_encodeI _ _ _ h]
  | _ => simp [decode, encode]

/-! ## The word of what the decoder answers (R70, R71) -/

theorem fitsImm16_imm16Field (cw : BitVec 32) : fitsImm16 (imm16Field cw) = true :=
  decide_eq_true (cw.extractLsb' 0 16).isLt

theorem fitsImm8_imm8Field (cw : BitVec 32) : fitsImm8 (imm8Field cw) = true :=
  decide_eq_true (cw.extractLsb' 0 8).isLt

/-! A word is the encoding of its own fields when the must-be-0 field of the format is 0. -/

section
variable {cw : BitVec 32} {op : BitVec 8} (hop : opField cw = op)
include hop

open BitVec (extractLsb'_append_extractLsb'_eq_extractLsb' extractLsb'_eq_self)

theorem encodeE_fields (h : cw.extractLsb' 0 24 = 0#24) : encodeE op = cw := by
  simp only [← hop, encodeE, opField, ← h, extractLsb'_append_extractLsb'_eq_extractLsb']
  exact extractLsb'_eq_self

theorem encodeR_fields (h : cw.extractLsb' 0 18 = 0#18) :
    encodeR op (rdField cw) (rs1Field cw) (rs2Field cw) = cw := by
  simp only [← hop, encodeR, opField, rdField, rs1Field, rs2Field, Reg.bits_ofBits, ← h,
    extractLsb'_append_extractLsb'_eq_extractLsb']
  exact extractLsb'_eq_self

theorem encodeI_fields (h : cw.extractLsb' 16 4 = 0#4) :
    encodeI op (rdField cw) (rs1Field cw) (imm16Field cw) = cw := by
  simp only [← hop, encodeI, opField, rdField, rs1Field, imm16Field, Reg.bits_ofBits, ← h,
    BitVec.ofNat_toNat, BitVec.setWidth_eq, extractLsb'_append_extractLsb'_eq_extractLsb']
  exact extractLsb'_eq_self

theorem encodeL16_fields (h : cw.extractLsb' 16 6 = 0#6) :
    encodeL16 op (rdField cw) (imm16Field cw) = cw := by
  simp only [← hop, encodeL16, opField, rdField, imm16Field, Reg.bits_ofBits, ← h,
    BitVec.ofNat_toNat, BitVec.setWidth_eq, extractLsb'_append_extractLsb'_eq_extractLsb']
  exact extractLsb'_eq_self

theorem encodeL8_fields (h : cw.extractLsb' 8 14 = 0#14) :
    encodeL8 op (rdField cw) (imm8Field cw) = cw := by
  simp only [← hop, encodeL8, opField, rdField, imm8Field, Reg.bits_ofBits, ← h,
    BitVec.ofNat_toNat, BitVec.setWidth_eq, extractLsb'_append_extractLsb'_eq_extractLsb']
  exact extractLsb'_eq_self

end

/-- A word the decoder accepts is the word of the command it answers, with every operand in range. -/
theorem encode_of_decode {cw : BitVec 32} {i : Instr} (h : decode cw = .ok i) :
    i.wellFormed = true ∧ encode i = cw := by
  unfold decode at h
  split at h
  -- formats E, R, L with imm16, L with imm8, I, and the unlisted opcode bytes
  case h_1 hop | h_2 hop | h_3 hop =>
    obtain ⟨hzero, rfl⟩ := ifReservedZero_eq_ok_iff.1 h
    exact ⟨rfl, encodeE_fields (BitVec.eq_of_toNat_eq hop) hzero⟩
  case h_4 hop | h_5 hop | h_6 hop | h_7 hop | h_8 hop | h_9 hop | h_10 hop | h_11 hop | h_12 hop =>
    obtain ⟨hzero, rfl⟩ := ifReservedZero_eq_ok_iff.1 h
    exact ⟨rfl, encodeR_fields (BitVec.eq_of_toNat_eq hop) hzero⟩
  case h_13 hop =>
    obtain ⟨hzero, rfl⟩ := ifReservedZero_eq_ok_iff.1 h
    exact ⟨fitsImm16_imm16Field cw, encodeL16_fields (BitVec.eq_of_toNat_eq hop) hzero⟩
  case h_14 hop =>
    obtain ⟨hzero, rfl⟩ := ifReservedZero_eq_ok_iff.1 h
    exact ⟨fitsImm8_imm8Field cw, encodeL8_fields (BitVec.eq_of_toNat_eq hop) hzero⟩
  case h_15 hop | h_16 hop | h_17 hop | h_18 hop =>
    obtain ⟨hzero, rfl⟩ := ifReservedZero_eq_ok_iff.1 h
    exact ⟨fitsImm16_imm16Field cw, encodeI_fields (BitVec.eq_of_toNat_eq hop) hzero⟩
  case h_19 => cases h

/-- The decoder answers exactly the well-formed command whose word it is given. -/
theorem decode_eq_ok_iff {cw : BitVec 32} {i : Instr} :
    decode cw = .ok i ↔ i.wellFormed = true ∧ encode i = cw := by
  constructor
  · exact encode_of_decode
  · rintro ⟨hwf, rfl⟩
    exact decode_encode hwf

/-! ## Words that match a row of the table (R76) -/

/-- A field that the mask keeps whole. -/
theorem extract_of_mask {cw mask bits : BitVec 32} (h : cw &&& mask = bits) (s : Nat) {l : Nat}
    (hmask : mask.extractLsb' s l = BitVec.allOnes l) : cw.extractLsb' s l = bits.extractLsb' s l := by
  rw [← h, BitVec.extractLsb'_and, hmask, BitVec.and_allOnes]

/-- Every word that matches the row decodes to a command of its mnemonic. -/
def Row.Answered (row : Row) : Prop :=
  ∀ cw, cw &&& row.mask = row.matchBits → ∃ i, decode cw = .ok i ∧ i.mnemonic = row.mnemonic

section
variable {name : String} {bits : BitVec 32}

theorem answered_formatE (i : Instr) (hzero : bits.extractLsb' 0 24 = 0#24)
    (hi : encode i = encodeE (opField bits) ∧ i.wellFormed = true ∧ i.mnemonic = name) :
    Row.Answered ⟨name, bits, 0xFFFFFFFF#32⟩ := by
  intro cw (h : cw &&& 0xFFFFFFFF#32 = bits)
  obtain ⟨henc, hwf, hname⟩ := hi
  have hop : opField cw = opField bits := extract_of_mask h 24 (by decide)
  have hcw := encodeE_fields hop ((extract_of_mask h 0 (by decide)).trans hzero)
  exact ⟨i, decode_eq_ok_iff.2 ⟨hwf, henc.trans hcw⟩, hname⟩

theorem answered_formatR (f : Reg → Reg → Reg → Instr) (hzero : bits.extractLsb' 0 18 = 0#18)
    (hf : ∀ rd rs1 rs2, encode (f rd rs1 rs2) = encodeR (opField bits) rd rs1 rs2 ∧
      (f rd rs1 rs2).wellFormed = true ∧ (f rd rs1 rs2).mnemonic = name) :
    Row.Answered ⟨name, bits, 0xFF03FFFF#32⟩ := by
  intro cw (h : cw &&& 0xFF03FFFF#32 = bits)
  obtain ⟨henc, hwf, hname⟩ := hf (rdField cw) (rs1Field cw) (rs2Field cw)
  have hop : opField cw = opField bits := extract_of_mask h 24 (by decide)
  have hcw := encodeR_fields hop ((extract_of_mask h 0 (by decide)).trans hzero)
  exact ⟨_, decode_eq_ok_iff.2 ⟨hwf, henc.trans hcw⟩, hname⟩

theorem answered_formatI (f : Reg → Reg → Nat → Instr) (hzero : bits.extractLsb' 16 4 = 0#4)
    (hf : ∀ rd rs1 n, encode (f rd rs1 n) = encodeI (opField bits) rd rs1 n ∧
      (f rd rs1 n).wellFormed = fitsImm16 n ∧ (f rd rs1 n).mnemonic = name) :
    Row.Answered ⟨name, bits, 0xFF0F0000#32⟩ := by
  intro cw (h : cw &&& 0xFF0F0000#32 = bits)
  obtain ⟨henc, hwf, hname⟩ := hf (rdField cw) (rs1Field cw) (imm16Field cw)
  have hop : opField cw = opField bits := extract_of_mask h 24 (by decide)
  have hcw := encodeI_fields hop ((extract_of_mask h 16 (by decide)).trans hzero)
  exact ⟨_, decode_eq_ok_iff.2 ⟨hwf.trans (fitsImm16_imm16Field cw), henc.trans hcw⟩, hname⟩

end

theorem answered_ldi : Row.Answered ⟨"LDI", 0x20000000#32, 0xFF3F0000#32⟩ := by
  intro cw (h : cw &&& 0xFF3F0000#32 = 0x20000000#32)
  have hwf : (Instr.ldi (rdField cw) (imm16Field cw)).wellFormed = true := fitsImm16_imm16Field cw
  have hop : opField cw = 0x20#8 := extract_of_mask h 24 (by decide)
  have hcw := encodeL16_fields hop (extract_of_mask h 16 (by decide))
  exact ⟨_, decode_eq_ok_iff.2 ⟨hwf, hcw⟩, rfl⟩

theorem answered_ldb : Row.Answered ⟨"LDB", 0x21000000#32, 0xFF3FFF00#32⟩ := by
  intro cw (h : cw &&& 0xFF3FFF00#32 = 0x21000000#32)
  have hwf : (Instr.ldb (rdField cw) (imm8Field cw)).wellFormed = true := fitsImm8_imm8Field cw
  have hop : opField cw = 0x21#8 := extract_of_mask h 24 (by decide)
  have hcw := encodeL8_fields hop (extract_of_mask h 8 (by decide))
  exact ⟨_, decode_eq_ok_iff.2 ⟨hwf, hcw⟩, rfl⟩

theorem answered_of_mem : ∀ row ∈ opcodeTable, row.Answered := by
  simp only [opcodeTable, List.forall_mem_cons]
  exact ⟨answered_formatE .keyexp rfl ⟨rfl, rfl, rfl⟩,
    answered_formatE .enc rfl ⟨rfl, rfl, rfl⟩,
    answered_formatE .dec rfl ⟨rfl, rfl, rfl⟩,
    answered_formatR .add rfl fun _ _ _ => ⟨rfl, rfl, rfl⟩,
    answered_formatR .sub rfl fun _ _ _ => ⟨rfl, rfl, rfl⟩,
    answered_formatR .xor rfl fun _ _ _ => ⟨rfl, rfl, rfl⟩,
    answered_formatR .or rfl fun _ _ _ => ⟨rfl, rfl, rfl⟩,
    answered_formatR .and rfl fun _ _ _ => ⟨rfl, rfl, rfl⟩,
    answered_formatR .shl rfl fun _ _ _ => ⟨rfl, rfl, rfl⟩,
    answered_formatR .shr rfl fun _ _ _ => ⟨rfl, rfl, rfl⟩,
    answered_formatR .rotl rfl fun _ _ _ => ⟨rfl, rfl, rfl⟩,
    answered_formatR .rotr rfl fun _ _ _ => ⟨rfl, rfl, rfl⟩,
    answered_ldi,
    answered_ldb,
    answered_formatI .shli rfl fun _ _ _ => ⟨rfl, rfl, rfl⟩,
    answered_formatI .shri rfl fun _ _ _ => ⟨rfl, rfl, rfl⟩,
    answered_formatI .rotli rfl fun _ _ _ => ⟨rfl, rfl, rfl⟩,
    answered_formatI .rotri rfl fun _ _ _ => ⟨rfl, rfl, rfl⟩,
    nofun⟩

/-! ## Facts about the rows (R76) -/

/-- The opcode byte of a row's command. -/
def Row.opcode (row : Row) : BitVec 8 := opField row.matchBits

theorem Row.eq_of_mnemonic_eq {row row' : Row} (h : row ∈ opcodeTable) (h' : row' ∈ opcodeTable)
    (heq : row.mnemonic = row'.mnemonic) : row = row' :=
  List.inj_on_of_nodup_map (f := Row.mnemonic) (by decide) h h' heq

theorem Row.eq_of_opcode_eq {row row' : Row} (h : row ∈ opcodeTable) (h' : row' ∈ opcodeTable)
    (heq : row.opcode = row'.opcode) : row = row' :=
  List.inj_on_of_nodup_map (f := Row.opcode) (by decide) h h' heq

/-- The mask of every row keeps the whole opcode byte. -/
theorem opField_of_match {row : Row} (h : row ∈ opcodeTable) {cw : BitVec 32}
    (hmatch : cw &&& row.mask = row.matchBits) : opField cw = row.opcode := by
  have hmask : ∀ row ∈ opcodeTable, row.mask.extractLsb' 24 8 = BitVec.allOnes 8 := by decide
  exact extract_of_mask hmatch 24 (hmask row h)

/-- At most one row matches a word. -/
theorem Row.eq_of_match {cw : BitVec 32} {row row' : Row} (h : row ∈ opcodeTable)
    (h' : row' ∈ opcodeTable) (hmatch : cw &&& row.mask = row.matchBits)
    (hmatch' : cw &&& row'.mask = row'.matchBits) :
    row = row' :=
  Row.eq_of_opcode_eq h h' ((opField_of_match h hmatch).symm.trans (opField_of_match h' hmatch'))

open Laws in
/-- The word of every command matches a row of its mnemonic: the family of Laws/PerInstr. -/
theorem encodesInItsRow : (i : Instr) → EncodesInItsRow.Statement i
  | .keyexp => EncodesInItsRow.keyexp
  | .enc => EncodesInItsRow.enc
  | .dec => EncodesInItsRow.dec
  | .add rd rs1 rs2 => EncodesInItsRow.add rd rs1 rs2
  | .sub rd rs1 rs2 => EncodesInItsRow.sub rd rs1 rs2
  | .xor rd rs1 rs2 => EncodesInItsRow.xor rd rs1 rs2
  | .or rd rs1 rs2 => EncodesInItsRow.or rd rs1 rs2
  | .and rd rs1 rs2 => EncodesInItsRow.and rd rs1 rs2
  | .shl rd rs1 rs2 => EncodesInItsRow.shl rd rs1 rs2
  | .shr rd rs1 rs2 => EncodesInItsRow.shr rd rs1 rs2
  | .rotl rd rs1 rs2 => EncodesInItsRow.rotl rd rs1 rs2
  | .rotr rd rs1 rs2 => EncodesInItsRow.rotr rd rs1 rs2
  | .ldi rd n => EncodesInItsRow.ldi rd n
  | .ldb rd n => EncodesInItsRow.ldb rd n
  | .shli rd rs1 n => EncodesInItsRow.shli rd rs1 n
  | .shri rd rs1 n => EncodesInItsRow.shri rd rs1 n
  | .rotli rd rs1 n => EncodesInItsRow.rotli rd rs1 n
  | .rotri rd rs1 n => EncodesInItsRow.rotri rd rs1 n

/-- Some row of R76 matches every word the decoder accepts. -/
theorem exists_row_of_decode {cw : BitVec 32} {i : Instr} (h : decode cw = .ok i) :
    ∃ row ∈ opcodeTable, row.mnemonic = i.mnemonic ∧ cw &&& row.mask = row.matchBits := by
  obtain ⟨-, rfl⟩ := encode_of_decode h
  exact encodesInItsRow i

theorem exists_decode_eq_error {cw : BitVec 32}
    (h : ∀ row ∈ opcodeTable, cw &&& row.mask ≠ row.matchBits) :
    ∃ reason, decode cw = .error reason := by
  cases hdec : decode cw with
  | error reason => exact ⟨reason, rfl⟩
  | ok i =>
    obtain ⟨row, hrow, -, hmatch⟩ := exists_row_of_decode hdec
    exact absurd hmatch (h row hrow)

theorem decode_of_decodeTableWord {w : Nat} {i : Instr} (h : decodeTableWord 32 w = some i) :
    decode (BitVec.ofNat 32 (w % 2 ^ 32)) = .ok i := by
  rw [decodeTableWord, if_pos (Nat.mod_lt _ (by decide))] at h
  generalize decode (BitVec.ofNat 32 (w % 2 ^ 32)) = answer at h ⊢
  cases answer with
  | error reason => cases h
  | ok j => exact congrArg _ (Option.some.inj h)

theorem opField_toNat (cw : BitVec 32) : (opField cw).toNat = cw.toNat / 2 ^ 24 := by
  rw [opField, BitVec.extractLsb'_toNat, Nat.shiftRight_eq_div_pow]
  omega

end Sys2Proof

namespace Sys2Proof.Machine

variable {W : Width}

/-! ## The command inside a `CMD` write (20_memory.md R53, 30_encoding.md R70) -/

/-- The written word as the statements spell it. -/
theorem commandWrite_eq (W : Width) (cw : BitVec 32) :
    commandWrite W cw = .write 0x000#10 (BitVec.ofNat W.dw cw.toNat) := by
  rw [BitVec.ofNat_toNat]
  rfl

/-- With no fault recorded, a command word written to `CMD` is performed: it always fits the register. -/
theorem step_commandWrite {e : Engine W} (hrun : e.fault = false) (cw : BitVec 32) (p : List (HostOp W))
    (o : List (Bus W)) :
    step ⟨W, e, commandWrite W cw :: p, o⟩ = State.command ⟨W, e, p, o⟩ cw := by
  have hfit : (cw.setWidth W.dw).toNat < 2 ^ 32 := by
    rw [BitVec.toNat_setWidth_of_le W.thirtyTwo_le_dw]
    exact cw.isLt
  rw [commandWrite, step_write_cmd hrun hfit, BitVec.setWidth_setWidth_of_le _ W.thirtyTwo_le_dw,
    BitVec.setWidth_eq]

/-! ## The pseudo-instructions (30_encoding.md R86, R87) -/

/-- The writes of a secret whose bytes all have an entry, `K[254]` being the last. -/
theorem keyByteOps_eq_some {k : Nat} {bytes : List Byte} (h : k + bytes.length ≤ 255) :
    keyByteOps k bytes = some ((bytes.zipIdx k).map fun c =>
      (.write (BitVec.ofNat 10 (0x100 + c.2)) (BitVec.ofNat W.dw c.1.toNat) : HostOp W)) := by
  induction bytes generalizing k with
  | nil => rfl
  | cons v vs ih =>
    rw [List.length_cons] at h
    have hk : k < Config.kmax := (by omega : k < 255)
    simp only [keyByteOps, dif_pos hk, ih (k := k + 1) (by omega), Option.map_some, List.zipIdx_cons,
      List.map_cons, BitVec.ofNat_toNat, wrOp, HostReg.addr]

/-- A secret with a byte beyond `K[254]` is refused (log entry 12). -/
theorem keyByteOps_eq_none {k : Nat} {bytes : List Byte} (hk : k ≤ 255) (h : 255 < k + bytes.length) :
    keyByteOps (W := W) k bytes = none := by
  induction bytes generalizing k with
  | nil => exact absurd h (Nat.not_lt.2 hk)
  | cons v vs ih =>
    rw [List.length_cons] at h
    rw [keyByteOps]
    split
    · next hlt =>
      rw [ih (k := k + 1) hlt (by omega), Option.map_none]
    · rfl

/-! ## The obligations -/

/-- Settles O52, format by format. -/
theorem decodeReadsBackEncode : Obligations.DecodeReadsBackEncode := by
  unfold Obligations.DecodeReadsBackEncode
  exact fun _ => decode_encode

/-- Settles O53: the fields of the word and its must-be-0 bits make up the whole word. -/
theorem decodeIgnoresNoBit : Obligations.DecodeIgnoresNoBit := by
  unfold Obligations.DecodeIgnoresNoBit
  exact fun _ _ => encode_of_decode

/-- Settles O54: every row is answered, the answer's own row is the only one of its mnemonic, and no two rows
have one opcode byte. -/
theorem decodeMatchesTheTable : Obligations.DecodeMatchesTheTable := by
  unfold Obligations.DecodeMatchesTheTable
  refine ⟨fun cw row hrow => ⟨answered_of_mem row hrow cw, ?_⟩,
    fun _ _ _ h h' => Row.eq_of_match h h'⟩
  rintro ⟨i, hdec, hname⟩
  obtain ⟨row', hrow', hname', hmatch⟩ := exists_row_of_decode hdec
  rwa [Row.eq_of_mnemonic_eq hrow hrow' (hname.symm.trans hname'.symm)]

/-- Settles O55: a word without a row has no command, and a row that matches has the word's opcode byte. -/
theorem illegalWordsRaiseIllegalCommand : Obligations.IllegalWordsRaiseIllegalCommand := by
  unfold Obligations.IllegalWordsRaiseIllegalCommand
  refine ⟨?fault, ?unlisted, ?reserved, by decide⟩
  case fault =>
    intro W e p o cw hrun hno
    obtain ⟨reason, hdec⟩ := exists_decode_eq_error hno
    rw [← commandWrite_eq, step_commandWrite hrun, State.command_of_illegal hdec, Spec.recordFault, hrun,
      if_neg Bool.false_ne_true]
  case unlisted =>
    intro cw hop row hrow hmatch
    have hlisted : ∀ row ∈ opcodeTable, ¬ (row.opcode.toNat = 0x00 ∨
        (0x04 ≤ row.opcode.toNat ∧ row.opcode.toNat ≤ 0x0F) ∨
        (0x19 ≤ row.opcode.toNat ∧ row.opcode.toNat ≤ 0x1F) ∨
        (0x22 ≤ row.opcode.toNat ∧ row.opcode.toNat ≤ 0x24) ∨ 0x29 ≤ row.opcode.toNat) := by decide
    rw [← opField_toNat, opField_of_match hrow hmatch] at hop
    exact hlisted row hrow hop
  case reserved =>
    intro cw listed hlisted hop hne row hrow hmatch
    have hzero : ∀ row ∈ opcodeTable, row.matchBits.extractLsb' 0 24 = 0#24 := by decide
    obtain rfl : row = listed :=
      Row.eq_of_opcode_eq hrow hlisted ((opField_of_match hrow hmatch).symm.trans hop)
    exact hne (hmatch ▸ hzero row hrow)

/-- Settles O51: a `CMD` write performs its word, which decodes to a command. -/
theorem stepRunsTheDecodedInstruction : Obligations.StepRunsTheDecodedInstruction := by
  unfold Obligations.StepRunsTheDecodedInstruction
  refine ⟨fun W e p o cw i hrun hdec => ?_, fun s w i hrun hdec => ?_⟩
  · rw [← commandWrite_eq, step_commandWrite hrun, State.command_of_legal hdec]
  · rw [← State.command_of_legal (decode_of_decodeTableWord hdec)]
    exact step_commandWrite hrun _ _ _

/-- Settles O56: the decoder evaluated on the six words. -/
theorem sampleWordsDecode : Obligations.SampleWordsDecode := by
  unfold Obligations.SampleWordsDecode
  decide

/-- Settles O57: `SETKEY` by induction over the bytes, the other lines by the definition of their
expansion. -/
theorem assemblerExpandsPseudoInstructions : Obligations.AssemblerExpandsPseudoInstructions := by
  unfold Obligations.AssemblerExpandsPseudoInstructions
  refine ⟨fun i => by simp [assemble],
    fun W xd xa a b r bytes => ⟨rfl, rfl, rfl, ?setblk, ?encryptk, ?decryptk, ?setkey, ?tooLong⟩⟩
  case setblk =>
    rw [BitVec.ofNat_toNat, BitVec.ofNat_toNat]
    rfl
  case encryptk =>
    rw [Line.expand, commandWrite_eq, commandWrite_eq]
    rfl
  case decryptk =>
    rw [Line.expand, commandWrite_eq, commandWrite_eq]
    rfl
  case setkey =>
    intro h
    rw [Line.expand, keyByteOps_eq_some (by omega), Option.map_some]
    rfl
  case tooLong =>
    intro h
    rw [Line.expand, keyByteOps_eq_none (by decide) (by omega), Option.map_none]

end Sys2Proof.Machine
end

section
/-! SUPPORT. The proofs of the word unit family (40_word_alu.md): the value of each word function, the one
register a word or rotate command writes, the words of `LDB` that are illegal. -/

namespace Sys2Proof

/-! ## A word of LDB with bits 15:8 set (40_word_alu.md R122) -/

theorem ifReservedZero_of_ne {n : Nat} {reserved : BitVec n} (h : reserved ≠ 0#n) (i : Instr) :
    ifReservedZero reserved i = .error .nonzeroReserved :=
  if_neg h

theorem decode_of_ldb_opcode {cw : BitVec 32} (h : opField cw = 0x21#8) : decode cw = decodeL8 cw .ldb := by
  simp [decode, h]

/-- Bits 15:8 belong to the must-be-0 field of `LDB`, which is 21:8. -/
theorem decode_ldb_of_bits_nonzero {cw : BitVec 32} (hop : opField cw = 0x21#8)
    (hbits : cw.extractLsb' 8 8 ≠ 0#8) : decode cw = .error .nonzeroReserved := by
  have hreserved : cw.extractLsb' 8 14 ≠ 0#14 := by
    intro hzero
    have hsub : (cw.extractLsb' 8 14).extractLsb' 0 8 = cw.extractLsb' 8 8 := by
      ext k hk
      simp [show k < 14 by omega]
    rw [hzero] at hsub
    exact hbits hsub.symm
  rw [decode_of_ldb_opcode hop, decodeL8, ifReservedZero_of_ne hreserved]

end Sys2Proof

namespace Sys2Proof.Machine

/-! ## Two facts about bit vectors of any width -/

/-- The largest Word, `2^w - 1`, has every bit set. -/
theorem ofNat_two_pow_sub_one (w : Nat) : BitVec.ofNat w (2 ^ w - 1) = BitVec.allOnes w := by
  apply BitVec.eq_of_toNat_eq
  simp

/-- Where no bit is set in both operands, or and xor agree. -/
theorem or_eq_xor_of_and_eq_zero {w : Nat} {x y : BitVec w} (h : x &&& y = 0#w) : x ||| y = x ^^^ y := by
  ext k hk
  have hbit : (x[k] && y[k]) = false := by rw [← BitVec.getElem_and, h, BitVec.getElem_zero]
  rw [BitVec.getElem_or, BitVec.getElem_xor]
  revert hbit
  cases x[k] <;> cases y[k] <;> decide

/-! ## The value and the bits of each word function (40_word_alu.md R101 to R109) -/

section
variable {w : Nat} (x y : BitVec w) (n : Nat)

theorem wordAdd_toNat : (wordAdd x y).toNat = (x.toNat + y.toNat) % 2 ^ w := x.toNat_add y

theorem wordSub_toNat : (wordSub x y).toNat = (2 ^ w + x.toNat - y.toNat) % 2 ^ w := by
  have hy := y.isLt
  rw [wordSub_eq, BitVec.toNat_sub, show 2 ^ w - y.toNat + x.toNat = 2 ^ w + x.toNat - y.toNat by omega]

/-- The difference with the borrow written out (R102). -/
theorem wordSub_toNat_eq_ite : (wordSub x y).toNat =
    if y.toNat ≤ x.toNat then x.toNat - y.toNat else x.toNat + 2 ^ w - y.toNat := by
  have hx := x.isLt
  have hy := y.isLt
  rw [wordSub_toNat]
  split
  · next hle =>
    rw [show 2 ^ w + x.toNat - y.toNat = x.toNat - y.toNat + 2 ^ w by omega, Nat.add_mod_right]
    exact Nat.mod_eq_of_lt (by omega)
  · next hlt =>
    rw [Nat.add_comm (2 ^ w)]
    exact Nat.mod_eq_of_lt (by omega)

theorem shl_toNat : (shl x n).toNat = x.toNat * 2 ^ (n % w) % 2 ^ w := by
  rw [shl_eq, BitVec.toNat_shiftLeft, Nat.shiftLeft_eq]

theorem shr_toNat : (shr x n).toNat = x.toNat / 2 ^ (n % w) := by
  rw [shr_eq, BitVec.toNat_ushiftRight, Nat.shiftRight_eq_div_pow]

/-- The bits below the amount are 0 (R106). -/
theorem shl_getLsbD_of_lt {k : Nat} (hk : k < n % w) : (shl x n).getLsbD k = false := by
  rw [shl_eq, BitVec.getLsbD_shiftLeft, decide_eq_true hk]
  simp

/-- Every bit that is not lost moves up by the amount (R106). -/
theorem shl_getLsbD_add {k : Nat} (hk : k + n % w < w) : (shl x n).getLsbD (k + n % w) = x.getLsbD k := by
  rw [shl_eq, BitVec.getLsbD_shiftLeft, decide_eq_true hk, decide_eq_false (by omega), Nat.add_sub_cancel]
  simp

/-- Every bit moves down by the amount, zeros enter at the top (R107). -/
theorem shr_getLsbD (k : Nat) :
    (shr x n).getLsbD k = (decide (k + n % w < w) && x.getLsbD (k + n % w)) := by
  rw [shr_eq, BitVec.getLsbD_ushiftRight, Nat.add_comm]
  by_cases hk : k + n % w < w
  · rw [decide_eq_true hk, Bool.true_and]
  · rw [decide_eq_false hk, Bool.false_and, BitVec.getLsbD_of_ge _ _ (Nat.le_of_not_lt hk)]

/-- An amount that is a multiple of the width copies the Word (R106, R107). -/
theorem shl_of_mod_eq_zero {n : Nat} (h : n % w = 0) : shl x n = x := by
  rw [shl_eq, h, BitVec.shiftLeft_zero]

theorem shr_of_mod_eq_zero {n : Nat} (h : n % w = 0) : shr x n = x := by
  rw [shr_eq, h, BitVec.ushiftRight_zero]

theorem fromUint_toNat : (fromUint n : BitVec w).toNat = n % 2 ^ w := BitVec.toNat_ofNat n w

end

section
variable {W : Width}

/-- A Byte loses no bit as a Word: every width has 8 bits at least (R108). -/
theorem fromByte_toNat (v : Byte) : (fromByte v : Word W).toNat = v.toNat :=
  BitVec.toNat_setWidth_of_le W.eight_le_bits

/-! ## The register a word or rotate command writes (R111) -/

/-- The frame of a register write. -/
theorem Engine.onlyX_setX (e : Engine W) (rd : Reg) (v : Word W) : Spec.onlyX rd e (e.setX rd v) :=
  ⟨fun _ h => e.getX_setX_of_ne h v, by simp⟩

/-- Every word and rotate command is one register write, of a value that only the registers decide. -/
theorem exec_writes_destination {i : Instr} {rd : Reg} (h : Spec.destination i = some rd) :
    ∃ v : (Reg → Word W) → Word W, ∀ (e : Engine W) (p : List (HostOp W)) (o : List (Bus W)),
      exec i ⟨W, e, p, o⟩ = .next ⟨W, e.setX rd (v e.getX), p, o⟩ := by
  cases i with
  | keyexp | enc | dec => cases h
  | add _ a b => cases h; exact ⟨fun X => wordAdd (X a) (X b), fun _ _ _ => rfl⟩
  | sub _ a b => cases h; exact ⟨fun X => wordSub (X a) (X b), fun _ _ _ => rfl⟩
  | xor _ a b => cases h; exact ⟨fun X => wordXor (X a) (X b), fun _ _ _ => rfl⟩
  | or _ a b => cases h; exact ⟨fun X => wordOr (X a) (X b), fun _ _ _ => rfl⟩
  | and _ a b => cases h; exact ⟨fun X => wordAnd (X a) (X b), fun _ _ _ => rfl⟩
  | shl _ a b => cases h; exact ⟨fun X => shl (X a) (X b).toNat, fun _ _ _ => rfl⟩
  | shr _ a b => cases h; exact ⟨fun X => shr (X a) (X b).toNat, fun _ _ _ => rfl⟩
  | rotl _ a b => cases h; exact ⟨fun X => rotl (X a) (X b).toNat, fun _ _ _ => rfl⟩
  | rotr _ a b => cases h; exact ⟨fun X => rotr (X a) (X b).toNat, fun _ _ _ => rfl⟩
  | ldi _ n => cases h; exact ⟨fun _ => fromUint n, fun _ _ _ => rfl⟩
  | ldb _ n => cases h; exact ⟨fun _ => fromByte (immByte n), fun _ _ _ => rfl⟩
  | shli _ a n => cases h; exact ⟨fun X => shl (X a) n, fun _ _ _ => rfl⟩
  | shri _ a n => cases h; exact ⟨fun X => shr (X a) n, fun _ _ _ => rfl⟩
  | rotli _ a n => cases h; exact ⟨fun X => rotl (X a) n, fun _ _ _ => rfl⟩
  | rotri _ a n => cases h; exact ⟨fun X => rotr (X a) n, fun _ _ _ => rfl⟩

/-- A command that answers the write of `v` to `X[rd]` completes with its result and its frame: what the
statements about the single commands ask. -/
theorem completes_of_exec_eq_setX {i : Instr} {e : Engine W} {p : List (HostOp W)} {o : List (Bus W)} {rd : Reg}
    {v : Word W} (h : exec i ⟨W, e, p, o⟩ = .next ⟨W, e.setX rd v, p, o⟩) {P : Word W → Prop} (hv : P v) :
    ∃ e', exec i ⟨W, e, p, o⟩ = .next ⟨W, e', p, o⟩ ∧ P (e'.getX rd) ∧ Spec.onlyX rd e e' :=
  ⟨e.setX rd v, h, (e.getX_setX_same rd v).symm ▸ hv, e.onlyX_setX rd v⟩

end

/-! ## The obligations -/

/-- Settles O6: without a common bit addition is or, its value is the plain sum, and or is xor. -/
theorem disjointAddIsOrAndXor : Obligations.DisjointAddIsOrAndXor := by
  unfold Obligations.DisjointAddIsOrAndXor
  intro W x y h
  have hor : x + y = x ||| y := BitVec.add_eq_or_of_and_eq_zero x y h
  have hsum : (x + y).toNat = x.toNat + y.toNat := BitVec.toNat_add_of_and_eq_zero h
  exact ⟨hor, hor.trans (or_eq_xor_of_and_eq_zero h), hsum ▸ (x + y).isLt⟩

/-- Settles O17: each of the fifteen commands is one register write. -/
theorem wordCommandsWriteOnlyTheirDestination : Obligations.WordCommandsWriteOnlyTheirDestination := by
  unfold Obligations.WordCommandsWriteOnlyTheirDestination
  intro W i rd hdest
  obtain ⟨v, hexec⟩ := exec_writes_destination hdest
  exact ⟨v, fun e p o _ => completes_of_exec_eq_setX (P := (· = v e.getX)) (hexec e p o) rfl⟩

/-- Settles O1: the values, and the group laws of the library's bit vectors. -/
theorem wordAddAndSubWrap : Obligations.WordAddAndSubWrap := by
  unfold Obligations.WordAddAndSubWrap
  intro W x y z
  rw [ofNat_two_pow_sub_one, ← BitVec.neg_one_eq_allOnes]
  exact ⟨wordAdd_toNat x y, BitVec.add_comm x y, BitVec.add_assoc x y z, BitVec.add_zero x,
    neg_add_cancel 1, wordSub_toNat_eq_ite x y, wordSub_toNat x y, BitVec.zero_sub 1,
    BitVec.add_sub_cancel x y, BitVec.sub_add_cancel x y⟩

/-- Settles O2: the library's bit vectors act bit by bit. -/
theorem bitwiseFunctionsActBitByBit : Obligations.BitwiseFunctionsActBitByBit := by
  unfold Obligations.BitwiseFunctionsActBitByBit
  intro W x y
  rw [ofNat_two_pow_sub_one]
  refine ⟨fun k _ => BitVec.getLsbD_xor, fun k _ => BitVec.getLsbD_or, fun k _ => BitVec.getLsbD_and, ?undo,
    BitVec.xor_self, BitVec.xor_zero, BitVec.or_self, BitVec.or_zero, BitVec.and_self, BitVec.and_zero,
    BitVec.and_allOnes⟩
  case undo => rw [wordXor_eq, wordXor_eq, BitVec.xor_assoc, BitVec.xor_self, BitVec.xor_zero]

/-- Settles O3: the values and the bits of the two shifts, and an amount that is 0 modulo the width. -/
theorem shiftsReduceTheirAmount : Obligations.ShiftsReduceTheirAmount := by
  unfold Obligations.ShiftsReduceTheirAmount
  intro W x n
  exact ⟨shl_toNat x n, shr_toNat x n, fun _ => shl_getLsbD_of_lt x n, fun _ => shl_getLsbD_add x n,
    fun k _ => shr_getLsbD x n k, shl_of_mod_eq_zero x (Nat.mod_self _), shl_of_mod_eq_zero x (Nat.zero_mod _),
    shr_of_mod_eq_zero x (Nat.mod_self _), shr_of_mod_eq_zero x (Nat.zero_mod _)⟩

/-- Settles O4: zero-extension keeps the value of a Byte, and an integer is reduced. -/
theorem wordsFromBytesAndIntegers : Obligations.WordsFromBytesAndIntegers := by
  unfold Obligations.WordsFromBytesAndIntegers
  exact fun W v n => ⟨fromByte_toNat v, fromUint_toNat n⟩

/-- Settles O5: the laws of the library's bit vectors. -/
theorem wordAlgebraLaws : Obligations.WordAlgebraLaws := by
  unfold Obligations.WordAlgebraLaws
  intro W x y z
  refine ⟨BitVec.add_comm x y, BitVec.add_assoc x y z, ?inverse, ?negate, BitVec.xor_comm x y,
    BitVec.xor_assoc x y z, BitVec.or_comm x y, BitVec.or_assoc x y z, BitVec.and_comm x y,
    BitVec.and_assoc x y z⟩
  case inverse => simp
  case negate => simp [BitVec.sub_eq_add_neg]

/-- Settles O11: decoding reads back the word, and the command writes the sum or the difference. -/
theorem addAndSubWriteWrappedResult : Obligations.AddAndSubWriteWrappedResult := by
  unfold Obligations.AddAndSubWriteWrappedResult
  intro W e p o rd rs1 rs2 _
  exact ⟨⟨decode_encode (i := .add rd rs1 rs2) rfl,
      completes_of_exec_eq_setX (P := fun v => v.toNat = _) rfl (wordAdd_toNat _ _)⟩,
    decode_encode (i := .sub rd rs1 rs2) rfl,
      completes_of_exec_eq_setX (P := fun v => v.toNat = _) rfl (wordSub_toNat _ _)⟩

/-- Settles O12: decoding reads back the word, and the command writes the xor, or or and of the bits. -/
theorem bitwiseCommandsWriteBits : Obligations.BitwiseCommandsWriteBits := by
  unfold Obligations.BitwiseCommandsWriteBits
  intro W e p o rd rs1 rs2 _
  exact ⟨⟨decode_encode (i := .xor rd rs1 rs2) rfl,
      completes_of_exec_eq_setX rfl (fun _ _ => BitVec.getLsbD_xor)
        (P := fun v => ∀ k < W.bits, v.getLsbD k = ((e.getX rs1).getLsbD k ^^ (e.getX rs2).getLsbD k))⟩,
    ⟨decode_encode (i := .or rd rs1 rs2) rfl,
      completes_of_exec_eq_setX rfl (fun _ _ => BitVec.getLsbD_or)
        (P := fun v => ∀ k < W.bits, v.getLsbD k = ((e.getX rs1).getLsbD k || (e.getX rs2).getLsbD k))⟩,
    decode_encode (i := .and rd rs1 rs2) rfl,
      completes_of_exec_eq_setX rfl (fun _ _ => BitVec.getLsbD_and)
        (P := fun v => ∀ k < W.bits, v.getLsbD k = ((e.getX rs1).getLsbD k && (e.getX rs2).getLsbD k))⟩

/-- Settles O13: decoding reads back the word, and the command shifts by the value of `X[rs2]`. -/
theorem shiftCommandsShiftByWord : Obligations.ShiftCommandsShiftByWord := by
  unfold Obligations.ShiftCommandsShiftByWord
  intro W e p o rd rs1 rs2 _
  exact ⟨⟨decode_encode (i := .shl rd rs1 rs2) rfl,
      completes_of_exec_eq_setX (P := fun v => v.toNat = _) rfl (shl_toNat _ _)⟩,
    decode_encode (i := .shr rd rs1 rs2) rfl,
      completes_of_exec_eq_setX (P := fun v => v.toNat = _) rfl (shr_toNat _ _)⟩

/-- Settles O14: decoding reads back the word with its imm16, and the command shifts by it. -/
theorem immediateShiftsShiftByImm16 : Obligations.ImmediateShiftsShiftByImm16 := by
  unfold Obligations.ImmediateShiftsShiftByImm16
  intro W e p o rd rs1 n hn _
  have hfits : fitsImm16 n = true := decide_eq_true hn
  exact ⟨⟨decode_encode (i := .shli rd rs1 n) hfits,
      completes_of_exec_eq_setX (P := fun v => v.toNat = _) rfl (shl_toNat _ _)⟩,
    decode_encode (i := .shri rd rs1 n) hfits,
      completes_of_exec_eq_setX (P := fun v => v.toNat = _) rfl (shr_toNat _ _)⟩

/-- Settles O15: decoding reads back the word with its immediate, the command writes its value, and bits 15:8
of a word of `LDB` lie in its must-be-0 field. -/
theorem loadCommandsWriteImmediate : Obligations.LoadCommandsWriteImmediate := by
  unfold Obligations.LoadCommandsWriteImmediate
  intro W e p o rd n _
  refine ⟨fun hn => ⟨?ldiDecodes, ?ldiCompletes⟩, fun hn => ⟨?ldbDecodes, ?ldbCompletes⟩, fun z hz => ?illegal⟩
  case ldiDecodes => exact decode_encode (i := .ldi rd n) (decide_eq_true hn)
  case ldiCompletes => exact completes_of_exec_eq_setX (P := fun v => v.toNat = _) rfl (fromUint_toNat n)
  case ldbDecodes => exact decode_encode (i := .ldb rd n) (decide_eq_true hn)
  case ldbCompletes =>
    have hvalue : (fromByte (immByte n) : Word W).toNat = n := by
      rw [fromByte_toNat, immByte_eq, BitVec.toNat_ofNat, Nat.mod_eq_of_lt hn]
    exact completes_of_exec_eq_setX (P := fun v => v.toNat = n) rfl hvalue
  case illegal =>
    refine decode_ldb_of_bits_nonzero ?opcode ?bits
    case opcode =>
      simp [opField, BitVec.extractLsb'_append_eq_of_le, - Nat.reduceAdd]
    case bits =>
      rw [extract_high (s := 0), extract_low]
      exact hz

end Sys2Proof.Machine
end

section
/-! SUPPORT. The proofs of the rotator family (41_rotator.md). The rotation right is read bit by bit once; a
rotation left is one right by the complement of its amount, so its bits and the identities of both rotations
follow from how amounts add modulo the width. -/

namespace Sys2Proof

/-- Every width is a power of two (41_rotator.md R138). -/
theorem Width.bits_eq_two_pow (W : Width) : ∃ j, W.bits = 2 ^ j := by
  cases W
  · exact ⟨3, rfl⟩
  · exact ⟨4, rfl⟩
  · exact ⟨5, rfl⟩
  · exact ⟨6, rfl⟩

/-- Wrapping an amount modulo `2^w` does not change it modulo `w` (40_word_alu.md R125). -/
theorem Width.bits_dvd_two_pow_bits (W : Width) : W.bits ∣ 2 ^ W.bits := by
  obtain ⟨j, hj⟩ := W.bits_eq_two_pow
  rw [hj]
  exact pow_dvd_pow 2 Nat.lt_two_pow_self.le

end Sys2Proof

namespace Sys2Proof.Machine

section
variable {w : Nat} (x : BitVec w)

/-! ## The two cases of a rotation (41_rotator.md R137) -/

theorem rotl_of_mod_eq_zero {n : Nat} (h : n % w = 0) : rotl x n = x := if_pos h

theorem rotr_of_mod_eq_zero {n : Nat} (h : n % w = 0) : rotr x n = x := if_pos h

theorem rotl_of_mod_ne_zero {n : Nat} (h : n % w ≠ 0) :
    rotl x n = wordOr (shl x (n % w)) (shr x (w - n % w)) := if_neg h

theorem rotr_of_mod_ne_zero {n : Nat} (h : n % w ≠ 0) :
    rotr x n = wordOr (shr x (n % w)) (shl x (w - n % w)) := if_neg h

end

/-! ## An amount and its complement -/

/-- An effective amount that is not 0 has a complement that needs no reduction. -/
theorem complement_mod_of_mod_ne_zero {W : Width} {n : Nat} (h : n % W.bits ≠ 0) :
    (W.bits - n % W.bits) % W.bits = W.bits - n % W.bits :=
  Nat.mod_eq_of_lt (Nat.sub_lt W.bits_pos (Nat.pos_of_ne_zero h))

/-- An amount and its complement make up a multiple of the width. -/
theorem add_complement_mod (W : Width) (n : Nat) : (n + (W.bits - n % W.bits)) % W.bits = 0 := by
  rw [← Nat.mod_add_mod, Nat.add_sub_cancel' (Nat.mod_lt n W.bits_pos).le, Nat.mod_self]

section
variable {W : Width} (x : Word W)

/-! ## The bits of a rotation right (41_rotator.md R131) -/

/-- The rotation of the library shifts by the whole width at amount 0, where the model has its own case. -/
theorem rotr_eq_rotateRight (n : Nat) : rotr x n = x.rotateRight n := by
  rw [BitVec.rotateRight_def]
  by_cases h : n % W.bits = 0
  · rw [rotr_of_mod_eq_zero x h, h, BitVec.ushiftRight_zero, Nat.sub_zero,
      BitVec.shiftLeft_eq_zero (Nat.le_refl _), BitVec.or_zero]
  · rw [rotr_of_mod_ne_zero x h, wordOr_eq, shr_eq, shl_eq, Nat.mod_mod, complement_mod_of_mod_ne_zero h]

theorem rotr_getLsbD (n : Nat) {k : Nat} (hk : k < W.bits) :
    (rotr x n).getLsbD k = x.getLsbD ((k + n) % W.bits) := by
  have hn : n % W.bits < W.bits := Nat.mod_lt n W.bits_pos
  rw [rotr_eq_rotateRight, BitVec.getLsbD_rotateRight]
  by_cases h : k < W.bits - n % W.bits
  · have hindex : (k + n) % W.bits = n % W.bits + k := by
      rw [← Nat.add_mod_mod, Nat.mod_eq_of_lt (by omega), Nat.add_comm]
    rw [decide_eq_true h, cond_true, hindex]
  · have hindex : (k + n) % W.bits = k - (W.bits - n % W.bits) := by
      rw [← Nat.add_mod_mod, Nat.mod_eq, if_pos (by omega), Nat.mod_eq_of_lt (by omega)]
      omega
    rw [decide_eq_false h, decide_eq_true hk, cond_false, Bool.true_and, hindex]

/-! ## Amounts add, and the rotation left by the one right (41_rotator.md R132) -/

theorem rotr_rotr (m n : Nat) : rotr (rotr x m) n = rotr x (m + n) := by
  apply BitVec.eq_of_getLsbD_eq
  intro k hk
  rw [rotr_getLsbD _ n hk, rotr_getLsbD x m (Nat.mod_lt _ W.bits_pos), rotr_getLsbD x _ hk, Nat.mod_add_mod,
    Nat.add_assoc, Nat.add_comm n m]

/-- Identity (b), with the complement `w - n mod w` not yet reduced. -/
theorem rotl_eq_rotr (n : Nat) : rotl x n = rotr x (W.bits - n % W.bits) := by
  by_cases h : n % W.bits = 0
  · rw [rotl_of_mod_eq_zero x h, h, Nat.sub_zero, rotr_of_mod_eq_zero x (Nat.mod_self _)]
  · have hlt : n % W.bits < W.bits := Nat.mod_lt n W.bits_pos
    have hcomplement := complement_mod_of_mod_ne_zero h
    rw [rotl_of_mod_ne_zero x h, rotr_of_mod_ne_zero x (by omega), hcomplement, Nat.sub_sub_self hlt.le]
    exact BitVec.or_comm _ _

theorem rotr_rotl (n : Nat) : rotr (rotl x n) n = x := by
  rw [rotl_eq_rotr, rotr_rotr, Nat.add_comm, rotr_of_mod_eq_zero x (add_complement_mod W n)]

theorem rotl_rotr (n : Nat) : rotl (rotr x n) n = x := by
  rw [rotl_eq_rotr, rotr_rotr, rotr_of_mod_eq_zero x (add_complement_mod W n)]

/-- Rotations left compose as the rotations right that undo them do. -/
theorem rotl_rotl (m n : Nat) : rotl (rotl x m) n = rotl x (m + n) :=
  calc rotl (rotl x m) n
    _ = rotl (rotl (rotr (rotl x (m + n)) (m + n)) m) n := by rw [rotr_rotl]
    _ = rotl (rotl (rotr (rotr (rotl x (m + n)) n) m) m) n := by rw [rotr_rotr _ n m, Nat.add_comm n m]
    _ = rotl x (m + n) := by rw [rotl_rotr, rotl_rotr]

/-- Where a rotation left puts each bit (R130): the rotation right that undoes it reads it there. -/
theorem rotl_getLsbD_add_mod (n : Nat) {k : Nat} (hk : k < W.bits) :
    (rotl x n).getLsbD ((k + n) % W.bits) = x.getLsbD k := by
  rw [← rotr_getLsbD _ n hk, rotr_rotl]

end

/-! ## The low bits of an amount (41_rotator.md R138) -/

/-- As the width is a power of two, the low bits of a Word are its value modulo the width. -/
theorem wordAnd_bits_sub_one_toNat {W : Width} (y : Word W) :
    (wordAnd y (BitVec.ofNat W.bits (W.bits - 1))).toNat = y.toNat % W.bits := by
  obtain ⟨j, hj⟩ := W.bits_eq_two_pow
  have hmask : W.bits - 1 < 2 ^ W.bits := (Nat.sub_le _ _).trans_lt Nat.lt_two_pow_self
  calc (wordAnd y (BitVec.ofNat W.bits (W.bits - 1))).toNat
    _ = y.toNat &&& (W.bits - 1) := by
      rw [wordAnd_eq, BitVec.toNat_and, BitVec.toNat_ofNat, Nat.mod_eq_of_lt hmask]
    _ = y.toNat &&& (2 ^ j - 1) := congrArg (fun b => y.toNat &&& (b - 1)) hj
    _ = y.toNat % 2 ^ j := Nat.and_two_pow_sub_one_eq_mod _ _
    _ = y.toNat % W.bits := congrArg (y.toNat % ·) hj.symm

/-! ## The obligations -/

/-- Settles O7: the bits of the two rotations, the amount reduced first. -/
theorem rotationsMoveBits : Obligations.RotationsMoveBits := by
  unfold Obligations.RotationsMoveBits
  intro W x n k hk
  rw [Nat.add_mod_mod]
  exact ⟨rotl_getLsbD_add_mod x n hk, rotr_getLsbD x n hk⟩

/-- Settles O8: a rotation left is one right by the complement, and amounts add. -/
theorem rotationIdentities : Obligations.RotationIdentities := by
  unfold Obligations.RotationIdentities
  intro W x m n
  refine ⟨fun h => ⟨rotl_of_mod_eq_zero x h, rotr_of_mod_eq_zero x h⟩, rotl_of_mod_eq_zero x (Nat.zero_mod _),
    rotl_of_mod_eq_zero x (Nat.mod_self _), ?complement, ?fullTurn, rotr_rotl x n, rotl_rotr x n,
    rotl_rotl x m n⟩
  case complement => rw [rotr_mod, rotl_eq_rotr]
  case fullTurn => rw [rotl_rotl, rotl_of_mod_eq_zero x (add_complement_mod W n)]

/-- Settles O10: the width is a power of two that divides `2^w`, and a rotation reduces its amount. -/
theorem rotationAmountIsTheLowBits : Obligations.RotationAmountIsTheLowBits := by
  unfold Obligations.RotationAmountIsTheLowBits
  intro W x y n
  rw [wordAnd_bits_sub_one_toNat, rotl_mod, rotr_mod]
  exact ⟨Nat.mod_mod_of_dvd n W.bits_dvd_two_pow_bits, rfl, congrArg (y.toNat % ·), congrArg (y.toNat % ·),
    congrArg (y.toNat % ·), congrArg (y.toNat % ·), rfl, rfl⟩

/-- Settles O9: the two cases of each rotation, and at amount 0 both shifts copy the Word. -/
theorem rotationsAreOrsOfShifts : Obligations.RotationsAreOrsOfShifts := by
  unfold Obligations.RotationsAreOrsOfShifts
  intro W x n
  refine ⟨fun h => ⟨rotl_of_mod_eq_zero x h, rotr_of_mod_eq_zero x h⟩,
    fun h => ⟨rotl_of_mod_ne_zero x h, rotr_of_mod_ne_zero x h⟩, fun h => ?noSpecialCase⟩
  case noSpecialCase =>
    have hzero : 0 % W.bits = 0 := Nat.zero_mod _
    have hfull : W.bits % W.bits = 0 := Nat.mod_self _
    rw [h, Nat.sub_zero, shl_of_mod_eq_zero x hzero, shr_of_mod_eq_zero x hfull, shr_of_mod_eq_zero x hzero,
      shl_of_mod_eq_zero x hfull]
    exact ⟨BitVec.or_self, BitVec.or_self⟩

/-- Settles O16: decoding reads back the word, and the command writes the Word whose bits were moved. -/
theorem rotateCommandsRotate : Obligations.RotateCommandsRotate := by
  unfold Obligations.RotateCommandsRotate
  intro W e p o rd rs1 rs2 n hn _
  have hfits : fitsImm16 n = true := decide_eq_true hn
  exact ⟨⟨decode_encode (i := .rotl rd rs1 rs2) rfl,
      completes_of_exec_eq_setX rfl (fun _ => rotl_getLsbD_add_mod _ _)
        (P := fun v => ∀ k < W.bits, v.getLsbD ((k + (e.getX rs2).toNat) % W.bits) = (e.getX rs1).getLsbD k)⟩,
    ⟨decode_encode (i := .rotr rd rs1 rs2) rfl,
      completes_of_exec_eq_setX rfl (fun _ => rotr_getLsbD _ _)
        (P := fun v => ∀ k < W.bits, v.getLsbD k = (e.getX rs1).getLsbD ((k + (e.getX rs2).toNat) % W.bits))⟩,
    ⟨decode_encode (i := .rotli rd rs1 n) hfits,
      completes_of_exec_eq_setX rfl (fun _ => rotl_getLsbD_add_mod _ _)
        (P := fun v => ∀ k < W.bits, v.getLsbD ((k + n) % W.bits) = (e.getX rs1).getLsbD k)⟩,
    decode_encode (i := .rotri rd rs1 n) hfits,
      completes_of_exec_eq_setX rfl (fun _ => rotr_getLsbD _ _)
        (P := fun v => ∀ k < W.bits, v.getLsbD k = (e.getX rs1).getLsbD ((k + n) % W.bits))⟩

end Sys2Proof.Machine
end

section
/-! SUPPORT. The proofs of the key schedule family (42_key_schedule.md). The packing loop, the fill and the
mixing loop are read as sequences of buffers, each entry by its index; the byte lanes of the packed words and
the entries that mixing leaves alone are invariants of these sequences; KEYEXP installs their result. -/

namespace Sys2Proof.Machine

/-! ## The entries of a buffer -/

section
variable {w n : Nat}

/-- Entry `k` of a buffer as a total function of the index: 0 beyond the end, as the pseudocode's sequences
are indexed by every natural number. -/
def entry (v : Vector (BitVec w) n) (k : Nat) : BitVec w := if h : k < n then v[k] else 0

theorem entry_of_lt (v : Vector (BitVec w) n) {k : Nat} (h : k < n) : entry v k = v[k] := dif_pos h

theorem entry_of_le (v : Vector (BitVec w) n) {k : Nat} (h : n ≤ k) : entry v k = 0 := dif_neg h.not_gt

theorem entry_replicate_zero (k : Nat) : entry (Vector.replicate n (0 : BitVec w)) k = 0 := by
  by_cases h : k < n
  · rw [entry_of_lt _ h, Vector.getElem_replicate]
  · exact entry_of_le _ (Nat.le_of_not_lt h)

theorem entry_set_same (v : Vector (BitVec w) n) {k : Nat} (h : k < n) (x : BitVec w) :
    entry (v.set k x h) k = x := by
  rw [entry_of_lt _ h, Vector.getElem_set_self]

theorem entry_set_of_ne (v : Vector (BitVec w) n) {i k : Nat} (h : i < n) (hne : k ≠ i) (x : BitVec w) :
    entry (v.set i x h) k = entry v k := by
  by_cases hk : k < n
  · rw [entry_of_lt _ hk, entry_of_lt _ hk, Vector.getElem_set_ne _ _ hne.symm]
  · rw [entry_of_le _ (Nat.le_of_not_lt hk), entry_of_le _ (Nat.le_of_not_lt hk)]

/-- Buffers of one size with the same entries are equal. -/
theorem eq_of_entry_eq {u v : Vector (BitVec w) n} (h : ∀ k < n, entry u k = entry v k) : u = v :=
  Vector.ext fun k hk => by rw [← entry_of_lt u hk, ← entry_of_lt v hk, h k hk]

end

/-! ## Step 3: the fill is an arithmetic progression (R146) -/

section
variable {w : Nat} (pw qw : BitVec w) {t k : Nat}

theorem progression_getElem (q p : BitVec w) {n k : Nat} (h : k < (progression q p n).length) :
    (progression q p n)[k] = p + BitVec.ofNat w k * q := by
  induction n generalizing p k with
  | zero => exact absurd h (Nat.not_lt_zero k)
  | succ n ih =>
    cases k with
    | zero => simp [progression]
    | succ k =>
      have hk : k < (progression q (wordAdd p q) n).length := Nat.lt_of_succ_lt_succ h
      calc (progression q (wordAdd p q) n)[k]
        _ = p + q + BitVec.ofNat w k * q := ih (wordAdd p q) hk
        _ = p + BitVec.ofNat w (k + 1) * q := by
          rw [BitVec.ofNat_add, BitVec.add_mul, BitVec.one_mul, BitVec.add_assoc, BitVec.add_comm q]

theorem fillSchedule_getElem (h : k < t) : (fillSchedule pw qw t)[k] = pw + BitVec.ofNat w k * qw :=
  progression_getElem qw pw _

theorem fillSchedule_zero (h : 0 < t) : (fillSchedule pw qw t)[0] = pw := by
  rw [fillSchedule_getElem, BitVec.zero_mul, BitVec.add_zero]

theorem fillSchedule_succ (h : k + 1 < t) :
    (fillSchedule pw qw t)[k + 1] = wordAdd ((fillSchedule pw qw t)[k]'(Nat.lt_of_succ_lt h)) qw := by
  rw [fillSchedule_getElem, fillSchedule_getElem, wordAdd_eq, BitVec.ofNat_add, BitVec.add_mul, BitVec.one_mul,
    BitVec.add_assoc]

theorem fillSchedule_toNat (h : k < t) :
    ((fillSchedule pw qw t)[k]).toNat = (pw.toNat + k * qw.toNat) % 2 ^ w := by
  rw [fillSchedule_getElem, BitVec.toNat_add, BitVec.toNat_mul, BitVec.toNat_ofNat]
  simp

end

/-! ## Step 2: the packing loop as a sequence of buffers (R144) -/

section
variable {W : Width} {b : Nat}

theorem entry_packByte_same {c m : Nat} (l : Vector (Word W) c) (v : Byte) (hm : m < c) :
    entry (packByte l v m hm) m = wordAdd (rotl (entry l m) 8) (fromByte v) := by
  rw [packByte, entry_set_same, entry_of_lt]

theorem entry_packByte_of_ne {c m m' : Nat} (l : Vector (Word W) c) (v : Byte) (hm : m < c) (h : m' ≠ m) :
    entry (packByte l v m hm) m' = entry l m' :=
  entry_set_of_ne l hm h _

/-- The loop from byte `n-1` down, as the buffers it goes through: `P k` stands when bytes `n-1` to `k` have
been processed. -/
theorem packDown_sequence (key : Vector Byte b) (n : Nat) (h : n ≤ b)
    (l : Vector (Word W) (Config.keyWords W b)) :
    ∃ P : Nat → Vector (Word W) (Config.keyWords W b), P n = l ∧ P 0 = packDown key n h l ∧
      ∀ k (hk : k < n), P k = packByte (P (k + 1)) key[k] (k / W.bytes) (packIndex_lt (hk.trans_le h)) := by
  induction n generalizing l with
  | zero => exact ⟨fun _ => l, rfl, rfl, nofun⟩
  | succ n ih =>
    obtain ⟨P, hstart, hend, hstep⟩ := ih (Nat.le_of_succ_le h)
      (packByte l key[n] (n / W.bytes) (packIndex_lt h))
    refine ⟨Function.update P (n + 1) l, Function.update_self .., ?_, fun k hk => ?_⟩
    · rw [Function.update_of_ne (Nat.succ_ne_zero n).symm]
      exact hend
    · rw [Function.update_of_ne (by omega)]
      obtain hlt | rfl := Nat.lt_succ_iff_lt_or_eq.1 hk
      · rw [Function.update_of_ne (by omega)]
        exact hstep k hlt
      · rw [Function.update_self]
        exact hstart

/-- Steps 1 and 2 as a sequence of buffers, the empty key included. -/
theorem packKey_sequence (key : Vector Byte b) :
    ∃ P : Nat → Vector (Word W) (Config.keyWords W b), P b = Vector.replicate _ 0 ∧ P 0 = packKey key ∧
      ∀ k (hk : k < b), P k = packByte (P (k + 1)) key[k] (k / W.bytes) (packIndex_lt hk) := by
  obtain ⟨P, hstart, hend, hstep⟩ := packDown_sequence key b (Nat.le_refl b) (Vector.replicate _ 0)
  refine ⟨P, hstart, ?_, hstep⟩
  rw [hend, packKey]
  split
  · rfl
  · next hb =>
    obtain rfl : b = 0 := by omega
    rfl

/-- The empty key leaves L zero (R153). -/
theorem packKey_of_empty (hb : b = 0) (key : Vector Byte b) :
    (packKey key : Vector (Word W) (Config.keyWords W b)) = Vector.replicate _ 0 :=
  if_neg (by omega)

end

/-! ## The byte lanes of a packed word (R145) -/

section
variable {W : Width}

/-- Byte lane `q` of a Word, bits `8q + 7 : 8q`. -/
def lane (x : Word W) (q : Nat) : Byte := x.extractLsb' (8 * q) 8

theorem lane_getLsbD (x : Word W) (q : Nat) {i : Nat} (hi : i < 8) :
    (lane x q).getLsbD i = x.getLsbD (8 * q + i) := by
  rw [lane, BitVec.getLsbD_extractLsb', decide_eq_true hi, Bool.true_and]

@[simp] theorem lane_zero (q : Nat) : lane (0 : Word W) q = 0 := by
  simp [lane]

/-- A Word is its byte lanes. -/
theorem eq_of_lane_eq {x y : Word W} (h : ∀ q < W.bytes, lane x q = lane y q) : x = y := by
  apply BitVec.eq_of_getLsbD_eq
  intro k hk
  have hq : k / 8 < W.bytes := Nat.div_lt_of_lt_mul hk
  have hi : k % 8 < 8 := Nat.mod_lt k (by decide)
  rw [← Nat.div_add_mod k 8, ← lane_getLsbD x _ hi, ← lane_getLsbD y _ hi, h _ hq]

/-- With the top lane 0 nothing is rotated back in at the bottom, at 8 bits as at the wider widths. -/
theorem rotl_eight_of_top_lane_zero {x : Word W} (h : lane x (W.bytes - 1) = 0) : rotl x 8 = x <<< 8 := by
  apply BitVec.eq_of_getLsbD_eq
  intro k hk
  rw [rotl_eq_rotr, rotr_getLsbD x _ hk, BitVec.getLsbD_shiftLeft, decide_eq_true hk, Bool.true_and]
  by_cases hk8 : k < 8
  · have hindex : (k + (W.bits - 8 % W.bits)) % W.bits = 8 * (W.bytes - 1) + k := by
      cases W <;> simp only [Width.bits, Width.bytes] at hk ⊢ <;> omega
    rw [hindex, ← lane_getLsbD x _ hk8, h]
    simp [hk8]
  · have hindex : (k + (W.bits - 8 % W.bits)) % W.bits = k - 8 := by
      cases W <;> simp only [Width.bits, Width.bytes] at hk ⊢ <;> omega
    rw [hindex, decide_eq_false hk8, Bool.not_false, Bool.true_and]

/-- The key byte falls into the 8 bits that the rotation leaves 0, so it is added without a carry (R124). -/
theorem packed_eq_or {x : Word W} (h : lane x (W.bytes - 1) = 0) (v : Byte) :
    wordAdd (rotl x 8) (fromByte v) = x <<< 8 ||| v.setWidth W.bits := by
  have hdisjoint : x <<< 8 &&& v.setWidth W.bits = 0#W.bits := by
    ext k hk
    by_cases hk8 : k < 8
    · simp [hk8]
    · simp [BitVec.getLsbD_of_ge v k (Nat.le_of_not_lt hk8)]
  rw [rotl_eight_of_top_lane_zero h, wordAdd_eq, fromByte_eq, BitVec.add_eq_or_of_and_eq_zero _ _ hdisjoint]

theorem packed_lane_zero {x : Word W} (h : lane x (W.bytes - 1) = 0) (v : Byte) :
    lane (wordAdd (rotl x 8) (fromByte v)) 0 = v := by
  apply BitVec.eq_of_getLsbD_eq
  intro i hi
  have hiw : i < W.bits := hi.trans_le W.eight_le_bits
  rw [lane_getLsbD _ _ hi, packed_eq_or h]
  simp [hi, hiw]

theorem packed_lane_succ {x : Word W} (h : lane x (W.bytes - 1) = 0) (v : Byte) {q : Nat}
    (hq : q + 1 < W.bytes) : lane (wordAdd (rotl x 8) (fromByte v)) (q + 1) = lane x q := by
  apply BitVec.eq_of_getLsbD_eq
  intro i hi
  have hiw : 8 * (q + 1) + i < W.bits := by
    rw [Width.bits]
    omega
  have hbyte : v.getLsbD (8 * (q + 1) + i) = false := BitVec.getLsbD_of_ge _ _ (by omega)
  rw [lane_getLsbD _ _ hi, lane_getLsbD _ _ hi, packed_eq_or h, BitVec.getLsbD_or, BitVec.getLsbD_shiftLeft,
    BitVec.getLsbD_setWidth, hbyte, decide_eq_true hiw, decide_eq_false (by omega),
    show 8 * (q + 1) + i - 8 = 8 * q + i by omega]
  simp

/-! ## The lanes while the loop runs -/

/-- When the bytes from `k` on have been packed, word `m` still lacks the `k - m*u` lowest of its bytes: the
others stand that many lanes too low, and above them it is 0. -/
def PackedFrom {c : Nat} (K : Nat → Byte) (k : Nat) (l : Vector (Word W) c) : Prop :=
  ∀ m < c, ∀ q < W.bytes, lane (entry l m) q =
    if q + (k - m * W.bytes) < W.bytes then K (m * W.bytes + q + (k - m * W.bytes)) else 0

/-- The packing of byte `k` into its own word. -/
theorem packed_lane {K : Nat → Byte} {k q : Nat} {x : Word W} (hq : q < W.bytes)
    (hx : ∀ q < W.bytes, lane x q = if q + (k % W.bytes + 1) < W.bytes
      then K (k / W.bytes * W.bytes + q + (k % W.bytes + 1)) else 0) :
    lane (wordAdd (rotl x 8) (fromByte (K k))) q = if q + k % W.bytes < W.bytes
      then K (k / W.bytes * W.bytes + q + k % W.bytes) else 0 := by
  have hu := W.bytes_pos
  have hj : k % W.bytes < W.bytes := Nat.mod_lt k hu
  have htop : lane x (W.bytes - 1) = 0 := by
    rw [hx _ (by omega), if_neg (by omega)]
  cases q with
  | zero => rw [packed_lane_zero htop, if_pos (by omega), Nat.add_zero, Nat.div_add_mod']
  | succ q =>
    rw [packed_lane_succ htop _ hq, hx q (by omega)]
    simp only [Nat.add_assoc, Nat.add_comm 1]

/-- A word other than that of byte `k` is complete before byte `k` is packed, or lacks all its bytes after
it. -/
theorem lack_of_ne_div {k m : Nat} (hm : m ≠ k / W.bytes) :
    (k + 1 ≤ m * W.bytes) ∨ (W.bytes ≤ k - m * W.bytes) := by
  have hdiv := Nat.div_add_mod' k W.bytes
  have hj : k % W.bytes < W.bytes := Nat.mod_lt k W.bytes_pos
  obtain hlt | hgt := Nat.lt_or_gt_of_ne hm
  · have := Nat.mul_le_mul_right W.bytes (Nat.succ_le_of_lt hlt)
    rw [Nat.succ_mul] at this
    omega
  · have := Nat.mul_le_mul_right W.bytes (Nat.succ_le_of_lt hgt)
    rw [Nat.succ_mul] at this
    omega

/-- Each iteration of the packing loop keeps the invariant. -/
theorem PackedFrom.packByte {c k : Nat} {K : Nat → Byte} {l : Vector (Word W) c} (h : PackedFrom K (k + 1) l)
    (hk : k / W.bytes < c) : PackedFrom K k (packByte l (K k) (k / W.bytes) hk) := by
  intro m hm q hq
  by_cases hword : m = k / W.bytes
  · subst hword
    have hdiv := Nat.div_add_mod' k W.bytes
    have hnow : k - k / W.bytes * W.bytes = k % W.bytes := by omega
    have hbefore : k + 1 - k / W.bytes * W.bytes = k % W.bytes + 1 := by omega
    rw [entry_packByte_same, hnow]
    exact packed_lane hq (hbefore ▸ h _ hm)
  · rw [entry_packByte_of_ne _ _ hk hword, h m hm q hq]
    obtain habove | hbelow := lack_of_ne_div hword
    · rw [show k + 1 - m * W.bytes = k - m * W.bytes by omega]
    · rw [if_neg (by omega), if_neg (by omega)]

/-- Before the loop every lane is 0, as the key has no byte from `b` on. -/
theorem packedFrom_replicate_zero {b : Nat} (key : Vector Byte b) (c : Nat) :
    PackedFrom (entry key) b (Vector.replicate c (0 : Word W)) := by
  intro m _ q _
  rw [entry_replicate_zero, lane_zero, entry_of_le key (by omega), ite_self]

/-- Closed form of the packing: no byte is lacking at the end. -/
theorem packKey_lane {b m q : Nat} (key : Vector Byte b) (hm : m < Config.keyWords W b) (hq : q < W.bytes) :
    lane (entry (packKey key : Vector (Word W) (Config.keyWords W b)) m) q = entry key (m * W.bytes + q) := by
  obtain ⟨P, hstart, hend, hstep⟩ := packKey_sequence (W := W) key
  have hpacked : PackedFrom (entry key) 0 (P 0) := by
    refine Nat.decreasingInduction (motive := fun k _ => PackedFrom (entry key) k (P k)) (fun k hk ih => ?_) ?_
      (Nat.zero_le b)
    · rw [hstep k hk, ← entry_of_lt key hk]
      exact ih.packByte _
    · rw [hstart]
      exact packedFrom_replicate_zero key _
  rw [← hend, hpacked m hm q hq, Nat.zero_sub, Nat.add_zero, Nat.add_zero, if_pos hq]

end

/-! ## Step 4: one iteration of the mixing loop, read by entries (R147, R148) -/

section
variable {w t c : Nat} (m : Mix w t c)

theorem Mix.run_succ (n : Nat) : Mix.run (n + 1) m = (Mix.run n m).next := by
  induction n generalizing m with
  | zero => rfl
  | succ n ih => exact ih m.next

theorem Mix.next_a : m.next.a = rotl (wordAdd (wordAdd (entry m.s m.i) m.a) m.b) 3 := by
  rw [entry_of_lt _ m.i.isLt]
  rfl

theorem Mix.next_b : m.next.b =
    rotl (wordAdd (wordAdd (entry m.l m.j) m.next.a) m.b) (wordAdd m.next.a m.b).toNat := by
  rw [entry_of_lt _ m.j.isLt]
  rfl

theorem Mix.next_i : (m.next.i : Nat) = (m.i + m.j) % t := rfl

theorem Mix.next_j : (m.next.j : Nat) = (m.j + m.next.i) % c := rfl

theorem Mix.entry_next_s : entry m.next.s m.i = m.next.a := entry_set_same m.s m.i.isLt _

theorem Mix.entry_next_l : entry m.next.l m.j = m.next.b := entry_set_same m.l m.j.isLt _

theorem Mix.entry_next_s_of_ne {k : Nat} (h : k ≠ m.i) : entry m.next.s k = entry m.s k :=
  entry_set_of_ne m.s m.i.isLt h _

theorem Mix.entry_next_l_of_ne {k : Nat} (h : k ≠ m.j) : entry m.next.l k = entry m.l k :=
  entry_set_of_ne m.l m.j.isLt h _

end

/-! ## The model follows the pseudocode's sequences (R140) -/

section
variable {W : Width}

/-- The packing loop, the fill and the mixing loop of the model are a trace of the pseudocode. -/
theorem exists_keyexpTrace (pw qw : Word W) {b : Nat} (key : Vector Byte b) (r : Nat) {K : Nat → Byte}
    (hK : ∀ k (h : k < b), key[k] = K k) :
    ∃ P F A B I J L, Spec.KeyexpTrace pw qw b r K P F A B I J
      (fun n => entry (Mix.run n (mixStart pw qw key r)).s) L := by
  obtain ⟨P, hstart, hend, hstep⟩ := packKey_sequence (W := W) key
  refine ⟨fun k => entry (P k), entry (fillSchedule pw qw (subkeyCount r)),
    fun n => (Mix.run n (mixStart pw qw key r)).a, fun n => (Mix.run n (mixStart pw qw key r)).b,
    fun n => (Mix.run n (mixStart pw qw key r)).i, fun n => (Mix.run n (mixStart pw qw key r)).j,
    fun n => entry (Mix.run n (mixStart pw qw key r)).l, ?_⟩
  constructor
  case zeroed => exact fun m => hstart ▸ entry_replicate_zero m
  case packed =>
    intro k hk
    simp only [hstep k hk, hK k hk]
    exact entry_packByte_same _ _ _
  case packedOther =>
    intro k hk m hm
    simp only [hstep k hk]
    exact entry_packByte_of_ne _ _ _ hm
  case fillFirst => exact (entry_of_lt _ (Nat.succ_pos _)).trans (fillSchedule_zero pw qw _)
  case fillNext =>
    intro k (hk : k + 1 < subkeyCount r)
    rw [entry_of_lt _ hk, entry_of_lt _ (Nat.lt_of_succ_lt hk), fillSchedule_succ]
  case startA | startB | startI | startJ => rfl
  case startS => exact fun k _ => rfl
  case startL => exact fun m _ => by rw [hend]; rfl
  case line1 => exact fun n => by rw [Mix.run_succ, Mix.entry_next_s, Mix.next_a]
  case line1Other => exact fun n k hk => by rw [Mix.run_succ, Mix.entry_next_s_of_ne _ hk]
  case line2 => exact fun n => by rw [Mix.run_succ, Mix.entry_next_s]
  case line3 => exact fun n => by rw [Mix.run_succ, Mix.entry_next_l, Mix.next_b]
  case line3Other => exact fun n k hk => by rw [Mix.run_succ, Mix.entry_next_l_of_ne _ hk]
  case line4 => exact fun n => by rw [Mix.run_succ, Mix.entry_next_l]
  case line5I => exact fun n => by rw [Mix.run_succ, Mix.next_i]; rfl
  case line5J => exact fun n => by rw [Mix.run_succ, Mix.next_j]; rfl

end

/-! ## Only `S[0]` and `L[0]` are mixed (R152) -/

section
variable {w t c t' c' : Nat}

/-- `m` is reached from `m₀` with both indices 0 and every entry from 1 on as it was. -/
structure Mix.OnlyFirst (m₀ m : Mix w t c) : Prop where
  i : (m.i : Nat) = 0
  j : (m.j : Nat) = 0
  s : ∀ k, 1 ≤ k → entry m.s k = entry m₀.s k
  l : ∀ k, 1 ≤ k → entry m.l k = entry m₀.l k

/-- From `i = j = 0` the stepping of R148 stays at 0. -/
theorem Mix.OnlyFirst.next {m₀ m : Mix w t c} (h : m₀.OnlyFirst m) : m₀.OnlyFirst m.next := by
  have hi : (m.next.i : Nat) = 0 := by rw [Mix.next_i, h.i, h.j, Nat.zero_mod]
  exact {
    i := hi
    j := by rw [Mix.next_j, hi, h.j, Nat.zero_mod]
    s := fun k hk => (m.entry_next_s_of_ne (by rw [h.i]; omega)).trans (h.s k hk)
    l := fun k hk => (m.entry_next_l_of_ne (by rw [h.j]; omega)).trans (h.l k hk) }

theorem Mix.run_onlyFirst {m₀ : Mix w t c} (hi : (m₀.i : Nat) = 0) (hj : (m₀.j : Nat) = 0) (n : Nat) :
    m₀.OnlyFirst (Mix.run n m₀) := by
  induction n with
  | zero => exact ⟨hi, hj, fun _ _ => rfl, fun _ _ => rfl⟩
  | succ n ih => rw [Mix.run_succ]; exact ih.next

/-- Two mixing states, of any sizes, that agree in all that an iteration with `i = j = 0` reads. -/
structure Mix.SameFirst (m : Mix w t c) (m' : Mix w t' c') : Prop where
  a : m.a = m'.a
  b : m.b = m'.b
  s : entry m.s 0 = entry m'.s 0
  l : entry m.l 0 = entry m'.l 0

/-- An iteration with `i = j = 0` reads A, B, `S[0]` and `L[0]` alone. -/
theorem Mix.SameFirst.next {m : Mix w t c} {m' : Mix w t' c'} (h : m.SameFirst m') (hi : (m.i : Nat) = 0)
    (hj : (m.j : Nat) = 0) (hi' : (m'.i : Nat) = 0) (hj' : (m'.j : Nat) = 0) : m.next.SameFirst m'.next := by
  have ha : m.next.a = m'.next.a := by rw [Mix.next_a, Mix.next_a, hi, hi', h.s, h.a, h.b]
  have hb : m.next.b = m'.next.b := by rw [Mix.next_b, Mix.next_b, hj, hj', h.l, ha, h.b]
  exact {
    a := ha
    b := hb
    s := by rw [← hi, m.entry_next_s, hi, ← hi', m'.entry_next_s, ha]
    l := by rw [← hj, m.entry_next_l, hj, ← hj', m'.entry_next_l, hb] }

theorem Mix.SameFirst.run {m : Mix w t c} {m' : Mix w t' c'} (h : m.SameFirst m') (hi : (m.i : Nat) = 0)
    (hj : (m.j : Nat) = 0) (hi' : (m'.i : Nat) = 0) (hj' : (m'.j : Nat) = 0) (n : Nat) :
    (Mix.run n m).SameFirst (Mix.run n m') := by
  induction n with
  | zero => exact h
  | succ n ih =>
    have hm := Mix.run_onlyFirst hi hj n
    have hm' := Mix.run_onlyFirst hi' hj' n
    rw [Mix.run_succ, Mix.run_succ]
    exact ih.next hm.i hm.j hm'.i hm'.j

end

section
variable {W : Width} (pw qw : Word W) {b : Nat} (key : Vector Byte b) (r : Nat)

theorem mixStart_run_onlyFirst (n : Nat) :
    (mixStart pw qw key r).OnlyFirst (Mix.run n (mixStart pw qw key r)) :=
  Mix.run_onlyFirst rfl rfl n

/-- From index 1 on the schedule is the fill (R152 (b)). -/
theorem entry_expandKey_of_pos {k : Nat} (hk : 1 ≤ k) :
    entry (expandKey pw qw key r) k = entry (fillSchedule pw qw (subkeyCount r)) k :=
  (mixStart_run_onlyFirst pw qw key r _).s k hk

/-- `S[0]` is decided by PW, the first packed word and the iteration count (R152 (c)). -/
theorem entry_expandKey_zero_congr (qw' : Word W) {b' : Nat} (key' : Vector Byte b') (r' : Nat)
    (hfirst : entry (packKey key : Vector (Word W) (Config.keyWords W b)) 0 =
      entry (packKey key' : Vector (Word W) (Config.keyWords W b')) 0)
    (hcount : mixCount W b r = mixCount W b' r') :
    entry (expandKey pw qw key r) 0 = entry (expandKey pw qw' key' r') 0 := by
  have hfill (q : Word W) (s : Nat) : entry (fillSchedule pw q (subkeyCount s)) 0 = pw :=
    (entry_of_lt _ (Nat.succ_pos _)).trans (fillSchedule_zero pw q _)
  have hstart : (mixStart pw qw key r).SameFirst (mixStart pw qw' key' r') :=
    ⟨rfl, rfl, (hfill qw r).trans (hfill qw' r').symm, hfirst⟩
  rw [expandKey, expandKey, hcount]
  exact (hstart.run rfl rfl rfl rfl _).s

/-- The first packed word holds the first `u` key bytes. -/
theorem entry_packKey_zero_congr {key key' : Vector Byte b}
    (h : ∀ k (_ : k < b), k < W.bytes → key[k] = key'[k]) :
    entry (packKey key : Vector (Word W) (Config.keyWords W b)) 0 =
      entry (packKey key' : Vector (Word W) (Config.keyWords W b)) 0 := by
  apply eq_of_lane_eq
  intro q hq
  rw [packKey_lane key (keyWords_pos W b) hq, packKey_lane key' (keyWords_pos W b) hq, Nat.zero_mul, Nat.zero_add]
  by_cases hb : q < b
  · rw [entry_of_lt _ hb, entry_of_lt _ hb, h q hb hq]
  · rw [entry_of_le _ (Nat.le_of_not_lt hb), entry_of_le _ (Nat.le_of_not_lt hb)]

/-- Key bytes from index `u` on do not reach the schedule (R152 (d)). -/
theorem expandKey_congr_first_word {key' : Vector Byte b}
    (h : ∀ k (_ : k < b), k < W.bytes → key[k] = key'[k]) : expandKey pw qw key r = expandKey pw qw key' r := by
  apply eq_of_entry_eq
  intro k _
  cases k with
  | zero => exact entry_expandKey_zero_congr pw qw key r qw key' r (entry_packKey_zero_congr h) rfl
  | succ k => rw [entry_expandKey_of_pos _ _ _ _ k.succ_pos, entry_expandKey_of_pos _ _ _ _ k.succ_pos]

end

/-! ## The command (R140, R141, R150, R151) -/

section
variable {W : Width} (e : Engine W) {b r : Nat}

/-- The engine with a schedule installed as KEYEXP does it (R150). -/
def Engine.withSchedule (S : Vector (Word W) (subkeyCount r)) : Engine W :=
  { e with sub := Memory.writeFrom e.sub 0 S.toList, slen := BitVec.ofNat 9 (subkeyCount r) }

theorem Engine.withSchedule_slen (S : Vector (Word W) (subkeyCount r)) (hr : e.rounds.toNat = r) :
    (e.withSchedule S).slen.toNat = 2 * r + 1 := by
  have hlt : e.rounds.toNat < 2 ^ 8 := e.rounds.isLt
  rw [Engine.withSchedule, BitVec.toNat_ofNat, subkeyCount, Nat.mod_eq_of_lt (by omega)]

theorem Engine.read_withSchedule_of_lt (S : Vector (Word W) (subkeyCount r)) {k : Nat}
    (hk : k < subkeyCount r) : Memory.read (e.withSchedule S).sub k = some (entry S k) := by
  rw [Engine.withSchedule, Memory.read_writeFrom, if_pos (by simpa using hk), entry_of_lt S hk]
  simp [hk]

theorem Engine.read_withSchedule_of_le (S : Vector (Word W) (subkeyCount r)) {k : Nat}
    (hk : subkeyCount r ≤ k) : Memory.read (e.withSchedule S).sub k = Memory.read e.sub k := by
  rw [Engine.withSchedule, Memory.read_writeFrom, if_neg (by simpa using hk)]

theorem Engine.withSchedule_onlySchedule (S : Vector (Word W) (subkeyCount r)) :
    Spec.onlySchedule e (e.withSchedule S) :=
  ⟨fun x => by cases x <;> rfl, rfl, rfl, fun _ => rfl, rfl, rfl, rfl, rfl, rfl⟩

variable {e}

theorem exec_keyexp_of_gather_eq_ok (hb : e.klen.toNat = b) (hr : e.rounds.toNat = r) {key : Vector Byte b}
    (h : Memory.gather e.key b = .ok key) (p : List (HostOp W)) (o : List (Bus W)) :
    exec .keyexp ⟨W, e, p, o⟩ = .next ⟨W, e.withSchedule (expandKey e.pw e.qw key r), p, o⟩ := by
  subst hb hr
  have hkeyexp : e.keyexp = e.withSchedule (expandKey e.pw e.qw key e.rounds.toNat) := by
    rw [Engine.keyexp, h]
    rfl
  rw [← hkeyexp]
  rfl

theorem exec_keyexp_of_gather_eq_error {k : Nat} (h : Memory.gather e.key e.klen.toNat = .error k)
    (p : List (HostOp W)) (o : List (Bus W)) :
    exec .keyexp ⟨W, e, p, o⟩ = .next ⟨W, e.raise .uninitRead (BitVec.ofNat 32 (0x100 + k)), p, o⟩ := by
  have hkeyexp : e.keyexp = e.raise .uninitRead (BitVec.ofNat 32 (0x100 + k)) := by
    rw [Engine.keyexp, h]
  rw [← hkeyexp]
  rfl

/-- With every key byte present the key is gathered. -/
theorem exists_gather_of_keyReady (h : Spec.keyReady e) :
    ∃ key, Memory.gather e.key e.klen.toNat = .ok key := by
  cases hg : Memory.gather e.key e.klen.toNat with
  | ok key => exact ⟨key, rfl⟩
  | error k =>
    obtain ⟨hk, habsent⟩ := Memory.gather_error_absent hg
    exact absurd habsent (h k hk)

/-- With every key byte present KEYEXP installs the schedule of some key. -/
theorem exec_keyexp_of_keyReady (h : Spec.keyReady e) (p : List (HostOp W)) (o : List (Bus W)) :
    ∃ S : Vector (Word W) (subkeyCount e.rounds.toNat),
      exec .keyexp ⟨W, e, p, o⟩ = .next ⟨W, e.withSchedule S, p, o⟩ := by
  obtain ⟨key, hkey⟩ := exists_gather_of_keyReady h
  exact ⟨_, exec_keyexp_of_gather_eq_ok rfl rfl hkey p o⟩

end

/-! ## The obligations -/

/-- Settles O19: the closed form of the packing loop, by the invariant `PackedFrom`. -/
theorem packedKeyIsLittleEndian : Obligations.PackedKeyIsLittleEndian := by
  unfold Obligations.PackedKeyIsLittleEndian
  intro W b key m q hm hq
  rw [← entry_of_lt _ hm]
  exact packKey_lane key hm hq

/-- Settles O20: word `k` of the fill is `PW + k * QW`. -/
theorem fillIsAnArithmeticProgression : Obligations.FillIsAnArithmeticProgression := by
  unfold Obligations.FillIsAnArithmeticProgression
  exact fun W pw qw t => ⟨fillSchedule_zero pw qw, fun _ h => fillSchedule_succ pw qw h,
    fun _ h => fillSchedule_toNat pw qw h⟩

/-- Settles O21: the loops of the model are the trace, and KEYEXP installs its last S. -/
theorem keyexpFollowsItsPseudocode : Obligations.KeyexpFollowsItsPseudocode := by
  unfold Obligations.KeyexpFollowsItsPseudocode
  refine ⟨decode_encode (i := .keyexp) rfl, fun W e p o K _ hkey => ?_⟩
  have hgather : Memory.gather e.key e.klen.toNat = .ok (Vector.ofFn fun k => K k) :=
    (Memory.gather_eq_ok_iff _ _ _).2 fun k hk => by rw [hkey k hk, Vector.getElem_ofFn]
  obtain ⟨P, F, A, B, I, J, L, htrace⟩ :=
    exists_keyexpTrace e.pw e.qw (Vector.ofFn fun k : Fin e.klen.toNat => K k) e.rounds.toNat
      (fun _ _ => Vector.getElem_ofFn _)
  exact ⟨P, F, A, B, I, J, _, L, htrace, _, exec_keyexp_of_gather_eq_ok rfl rfl hgather p o,
    e.withSchedule_slen _ rfl, fun _ hk => e.read_withSchedule_of_lt _ hk,
    fun _ hk => e.read_withSchedule_of_le _ hk, e.withSchedule_onlySchedule _⟩

/-- Settles O22: `gather` answers the lowest absent index, or the whole key. -/
theorem keyexpReportsLowestAbsentKeyByte : Obligations.KeyexpReportsLowestAbsentKeyByte := by
  unfold Obligations.KeyexpReportsLowestAbsentKeyByte
  intro W e p o hrun
  constructor
  · intro k hk habsent hlowest
    have hgather := (Memory.gather_eq_error_iff e.key e.klen.toNat k).2 ⟨hk, habsent, hlowest⟩
    have hlt : k < 2 ^ 8 := hk.trans e.klen.isLt
    have hinfo : (BitVec.ofNat 32 (0x100 + k)).toNat = 0x100 + k := by
      rw [BitVec.toNat_ofNat, Nat.mod_eq_of_lt (by omega)]
    rw [exec_keyexp_of_gather_eq_error hgather, Engine.raise_eq_recordFault, hinfo, Spec.recordFault, hrun]
    rfl
  · intro hready
    obtain ⟨S, hexec⟩ := exec_keyexp_of_keyReady hready p o
    exact ⟨_, hexec, hrun⟩

/-- Settles O23: the invariants `OnlyFirst` and `SameFirst` of the mixing loop. -/
theorem mixingTouchesOnlyTheFirstEntries : Obligations.MixingTouchesOnlyTheFirstEntries := by
  unfold Obligations.MixingTouchesOnlyTheFirstEntries
  intro W pw qw b r key
  have hfirst := mixStart_run_onlyFirst pw qw key r
  refine ⟨fun n => ⟨(hfirst n).i, (hfirst n).j⟩, fun n k h hk => ?packed, fun k h hk => ?filled,
    fun qw' b' r' key' h0 h0' ht ht' hword hcount => ?first,
    fun key' hbytes => expandKey_congr_first_word pw qw key r hbytes⟩
  case packed =>
    rw [← entry_of_lt _ h, ← entry_of_lt _ h]
    exact (hfirst n).l k hk
  case filled =>
    rw [← entry_of_lt _ h, entry_expandKey_of_pos pw qw key r hk, entry_of_lt _ h, fillSchedule_toNat]
  case first =>
    rw [← entry_of_lt _ h0, ← entry_of_lt _ h0'] at hword
    rw [← entry_of_lt _ ht, ← entry_of_lt _ ht']
    exact entry_expandKey_zero_congr pw qw key r qw' key' r' hword hcount

/-- Settles O24: both engines gather the same key and install the schedule of it. -/
theorem keyexpIsDeterministic : Obligations.KeyexpIsDeterministic := by
  unfold Obligations.KeyexpIsDeterministic
  intro W e f p p' o o' _ _ hpw hqw hklen hrounds hready hkey
  obtain ⟨key, hgather⟩ := exists_gather_of_keyReady hready
  have hgather' : Memory.gather f.key e.klen.toNat = .ok key := Memory.gather_congr hkey ▸ hgather
  have hexec := exec_keyexp_of_gather_eq_ok (congrArg BitVec.toNat hklen.symm)
    (congrArg BitVec.toNat hrounds.symm) hgather' p' o'
  rw [← hpw, ← hqw] at hexec
  refine ⟨_, _, exec_keyexp_of_gather_eq_ok rfl rfl hgather p o, hexec, rfl, fun k hk => ?_⟩
  rw [e.withSchedule_slen _ rfl] at hk
  rw [e.read_withSchedule_of_lt _ hk, f.read_withSchedule_of_lt _ hk]

/-- Settles O25: KEYEXP installs a schedule for every KLEN and ROUNDS, and one of one word for ROUNDS = 0. -/
theorem emptyKeyAndZeroRoundsAreLegal : Obligations.EmptyKeyAndZeroRoundsAreLegal := by
  unfold Obligations.EmptyKeyAndZeroRoundsAreLegal
  refine ⟨fun W e p o hrun hempty => ⟨fun key m hm => ?zeroL, ?emptyKey⟩,
    fun W e p o hrun hzero hready => ?zeroRounds, fun pw qw hpw hqw => ?examples⟩
  case zeroL =>
    have hone : Config.keyWords W e.klen.toNat = 1 := by
      rw [hempty]
      cases W <;> rfl
    refine ⟨by omega, ?_⟩
    rw [← entry_of_lt _ hm, packKey_of_empty hempty, entry_replicate_zero]
  case emptyKey =>
    have hready : Spec.keyReady e := fun k hk => absurd hk (by omega)
    obtain ⟨S, hexec⟩ := exec_keyexp_of_keyReady hready p o
    exact ⟨_, hexec, hrun, e.withSchedule_slen S rfl,
      fun k hk => by rw [e.read_withSchedule_of_lt S hk]; exact Option.some_ne_none _⟩
  case zeroRounds =>
    obtain ⟨S, hexec⟩ := exec_keyexp_of_keyReady hready p o
    have hone : subkeyCount e.rounds.toNat = 1 := by rw [subkeyCount, hzero]
    refine ⟨_, hexec, hrun, (e.withSchedule_slen S rfl).trans hone, ?_,
      fun k hk => e.read_withSchedule_of_le S (hone.trans_le hk)⟩
    rw [e.read_withSchedule_of_lt S (by omega)]
    exact Option.some_ne_none _
  case examples =>
    obtain rfl : pw = 0xB7#8 := BitVec.eq_of_toNat_eq hpw
    obtain rfl : qw = 0x9F#8 := BitVec.eq_of_toNat_eq hqw
    decide

end Sys2Proof.Machine
end

section
/-! SUPPORT. The proofs of the cipher family (43_cipher.md). The rounds of the model are rewritten once over a
schedule that is a sequence of words, as the pseudocode has it: there a walk up the rounds and the walk down
undo each other, and nothing of the engine is left but the block and the entries below `2r`. -/

namespace Sys2Proof.Machine

/-! ## One round (43_cipher.md R167) -/

section
variable {W : Width}

/-- The decryption line undoes the encryption line with the same amount and other register. -/
theorem decLine_encLine (s x y : Word W) (n : Nat) :
    wordXor (rotr (wordSub (wordAdd (rotl (wordXor x y) n) s) s) n) y = x := by
  rw [wordAdd_eq, wordSub_eq, BitVec.add_sub_cancel, rotr_rotl, wordXor_eq, wordXor_eq, BitVec.xor_assoc,
    BitVec.xor_self, BitVec.xor_zero]

/-- The encryption line undoes the decryption line with the same amount and other register. -/
theorem encLine_decLine (s x y : Word W) (n : Nat) :
    wordAdd (rotl (wordXor (wordXor (rotr (wordSub x s) n) y) y) n) s = x := by
  rw [wordXor_eq, wordXor_eq, BitVec.xor_assoc, BitVec.xor_self, BitVec.xor_zero, rotl_rotr, wordSub_eq,
    wordAdd_eq, BitVec.sub_add_cancel]

@[simp] theorem decRound_encRound (s s' : Word W) (ab : Block W.bits) :
    decRound s s' (encRound s s' ab) = ab := by
  simp only [decRound, encRound, decLine_encLine]

@[simp] theorem encRound_decRound (s s' : Word W) (ab : Block W.bits) :
    encRound s s' (decRound s s' ab) = ab := by
  simp only [decRound, encRound, encLine_decLine]

/-! ## The rounds over a sequence of subkeys (43_cipher.md R163) -/

/-- Encryption rounds 1, 2, ..., n with the subkeys `K`. -/
def encWalk (K : Nat → Word W) : Nat → Block W.bits → Block W.bits
  | 0, ab => ab
  | n + 1, ab => encRound (K (2 * (n + 1))) (K (2 * (n + 1) + 1)) (encWalk K n ab)

/-- Decryption rounds n, n-1, ..., 1 with the subkeys `K`. -/
def decWalk (K : Nat → Word W) : Nat → Block W.bits → Block W.bits
  | 0, ab => ab
  | n + 1, ab => decWalk K n (decRound (K (2 * (n + 1))) (K (2 * (n + 1) + 1)) ab)

@[simp] theorem decWalk_encWalk (K : Nat → Word W) (n : Nat) (ab : Block W.bits) :
    decWalk K n (encWalk K n ab) = ab := by
  induction n with
  | zero => rfl
  | succ n ih => rw [encWalk, decWalk, decRound_encRound, ih]

@[simp] theorem encWalk_decWalk (K : Nat → Word W) (n : Nat) (ab : Block W.bits) :
    encWalk K n (decWalk K n ab) = ab := by
  induction n generalizing ab with
  | zero => rfl
  | succ n ih => rw [encWalk, decWalk, ih, encRound_decRound]

/-- A walk up the rounds passes what the decryption round makes of its next step. -/
theorem encWalk_eq_decRound (K : Nat → Word W) (n : Nat) (ab : Block W.bits) :
    encWalk K n ab = decRound (K (2 * (n + 1))) (K (2 * (n + 1) + 1)) (encWalk K (n + 1) ab) :=
  (decRound_encRound _ _ _).symm

/-- What ENC makes of a block with `r` rounds and the subkeys `K` (R162). -/
def encBlock (K : Nat → Word W) (r : Nat) (x : Block W.bits) : Block W.bits :=
  encWalk K (r - 1) (wordAdd x.1 (K 0), wordAdd x.2 (K 1))

/-- What DEC makes of a block with `r` rounds and the subkeys `K` (R166). -/
def decBlock (K : Nat → Word W) (r : Nat) (x : Block W.bits) : Block W.bits :=
  (wordSub (decWalk K (r - 1) x).1 (K 0), wordSub (decWalk K (r - 1) x).2 (K 1))

theorem decBlock_encBlock (K : Nat → Word W) (r : Nat) (x : Block W.bits) :
    decBlock K r (encBlock K r x) = x := by
  simp [decBlock, encBlock]

theorem encBlock_decBlock (K : Nat → Word W) (r : Nat) (x : Block W.bits) :
    encBlock K r (decBlock K r x) = x := by
  simp [decBlock, encBlock]

end

/-! ## The rounds of the model are those over the entries below `2r` (43_cipher.md R163, R170) -/

section
variable {W : Width} {r : Nat} {S : Vector (Word W) (subkeyCount r)} {K : Nat → Word W}
  (hS : ∀ k < 2 * r, entry S k = K k)
include hS

theorem getElem_eq_subkey {k : Nat} {hk : k < subkeyCount r} (h : k < 2 * r) : S[k] = K k :=
  (entry_of_lt S hk).symm.trans (hS k h)

theorem encRounds_eq_encWalk (n : Nat) (h : n < r) (ab : Block W.bits) :
    encRounds S n h ab = encWalk K n ab := by
  induction n with
  | zero => rfl
  | succ n ih =>
    rw [encRounds, encWalk, ih, getElem_eq_subkey hS (by omega), getElem_eq_subkey hS (by omega)]

theorem decRounds_eq_decWalk (n : Nat) (h : n < r) (ab : Block W.bits) :
    decRounds S n h ab = decWalk K n ab := by
  induction n generalizing ab with
  | zero => rfl
  | succ n ih =>
    rw [decRounds, decWalk, ih, getElem_eq_subkey hS (by omega), getElem_eq_subkey hS (by omega)]

theorem encrypt_eq_encBlock (h : 0 < r) (x : Block W.bits) : encrypt h S x = encBlock K r x := by
  rw [encrypt, encBlock, encRounds_eq_encWalk hS, getElem_eq_subkey hS (by omega),
    getElem_eq_subkey hS (by omega)]

theorem decrypt_eq_decBlock (h : 0 < r) (x : Block W.bits) : decrypt h S x = decBlock K r x := by
  rw [decrypt, decBlock, decRounds_eq_decWalk hS, getElem_eq_subkey hS (by omega),
    getElem_eq_subkey hS (by omega)]

end

/-! ## What ENC and DEC write (43_cipher.md R173) -/

section
variable {W : Width} (e : Engine W) (ab ab' : Block W.bits)

/-- The engine with another block `(X[0], X[1])`. -/
def Engine.withBlock : Engine W := { e with x0 := ab.1, x1 := ab.2 }

@[simp] theorem Engine.block_withBlock : ((e.withBlock ab).x0, (e.withBlock ab).x1) = ab := rfl
@[simp] theorem Engine.withBlock_rounds : (e.withBlock ab).rounds = e.rounds := rfl
@[simp] theorem Engine.withBlock_withBlock : (e.withBlock ab).withBlock ab' = e.withBlock ab' := rfl
@[simp] theorem Engine.withBlock_self : e.withBlock (e.x0, e.x1) = e := rfl

end

/-! ## The preconditions, case by case (43_cipher.md R161) -/

section
variable {W : Width} {e : Engine W} (cw : BitVec 32)
  (f : (r : Nat) → 0 < r → Vector (Word W) (subkeyCount r) → Block W.bits → Block W.bits)

theorem Engine.cipher_of_rounds_eq_zero (hr : e.rounds.toNat = 0) :
    e.cipher cw f = e.raise .roundsZero cw := dif_pos hr

theorem Engine.cipher_of_slen_ne (hr : e.rounds.toNat ≠ 0)
    (hslen : e.slen.toNat ≠ subkeyCount e.rounds.toNat) :
    e.cipher cw f = e.raise .schedMismatch (e.slen.setWidth 32) :=
  (dif_neg hr).trans (if_pos hslen)

theorem Engine.cipher_of_gather_eq_error (hr : e.rounds.toNat ≠ 0)
    (hslen : e.slen.toNat = subkeyCount e.rounds.toNat) {k : Nat}
    (hgather : Memory.gather e.sub (subkeyCount e.rounds.toNat) = .error k) :
    e.cipher cw f = e.raise .uninitRead (BitVec.ofNat 32 (0x200 + k)) := by
  rw [Engine.cipher, dif_neg hr, if_neg (not_not.2 hslen), hgather]

theorem Engine.cipher_of_gather_eq_ok (hr : e.rounds.toNat ≠ 0)
    (hslen : e.slen.toNat = subkeyCount e.rounds.toNat) {S : Vector (Word W) (subkeyCount e.rounds.toNat)}
    (hgather : Memory.gather e.sub (subkeyCount e.rounds.toNat) = .ok S) :
    e.cipher cw f = e.withBlock (f _ (Nat.pos_of_ne_zero hr) S (e.x0, e.x1)) := by
  rw [Engine.cipher, dif_neg hr, if_neg (not_not.2 hslen), hgather]
  rfl

/-- With every entry present the entries are gathered. -/
theorem Memory.exists_gather_of_read_ne_none {α : Type} {m : Memory α} {n : Nat}
    (h : ∀ k < n, Memory.read m k ≠ none) : ∃ S, Memory.gather m n = .ok S := by
  cases hgather : Memory.gather m n with
  | ok S => exact ⟨S, rfl⟩
  | error k =>
    obtain ⟨hk, habsent⟩ := Memory.gather_error_absent hgather
    exact absurd habsent (h k hk)

/-- A gathered schedule has the words that are read from `S`. -/
theorem entry_eq_of_gather_eq_ok {m : Memory (Word W)} {n : Nat} {S : Vector (Word W) n}
    (h : Memory.gather m n = .ok S) {k : Nat} (hk : k < n) {v : Word W} (hv : Memory.read m k = some v) :
    entry S k = v := by
  rw [entry_of_lt S hk]
  exact Option.some.inj (((Memory.gather_eq_ok_iff m n S).1 h k hk).symm.trans hv)

/-- With the preconditions met the schedule is a sequence of words. -/
theorem exists_subkeys_of_cipherReady (h : Spec.cipherReady e) :
    ∃ K : Nat → Word W, ∀ k < 2 * e.rounds.toNat, Memory.read e.sub k = some (K k) := by
  obtain ⟨-, -, hpresent⟩ := h
  refine ⟨fun k => (Memory.read e.sub k).getD 0, fun k hk => ?_⟩
  obtain ⟨v, hv⟩ := Option.ne_none_iff_exists'.1 (hpresent k (Nat.lt_succ_of_lt hk))
  simp only [hv, Option.getD_some]

/-- With the preconditions met the block becomes what the transform makes of it with every schedule of the
words read from `S`; the last word is left open (R170). -/
theorem Engine.cipher_of_cipherReady (h : Spec.cipherReady e) {K : Nat → Word W}
    (hK : ∀ k < 2 * e.rounds.toNat, Memory.read e.sub k = some (K k)) {ab : Block W.bits}
    (hf : ∀ S (hpos : 0 < e.rounds.toNat), (∀ k < 2 * e.rounds.toNat, entry S k = K k) →
      f _ hpos S (e.x0, e.x1) = ab) :
    e.cipher cw f = e.withBlock ab := by
  obtain ⟨hr, hslen, hpresent⟩ := h
  obtain ⟨S, hgather⟩ := Memory.exists_gather_of_read_ne_none (n := subkeyCount _) hpresent
  rw [Engine.cipher_of_gather_eq_ok cw f hr hslen hgather]
  exact congrArg e.withBlock
    (hf S _ fun k hk => entry_eq_of_gather_eq_ok hgather (Nat.lt_succ_of_lt hk) (hK k hk))

/-- Fault entry while no fault is recorded, with FINFO as a number (60_exceptions.md R190). -/
theorem Engine.raise_eq_of_toNat_eq (hrun : e.fault = false) (c : Cause) {info : BitVec 32} {n : Nat}
    (hinfo : info.toNat = n) :
    e.raise c info = { e with fault := true, cause := c.code, finfo := BitVec.ofNat W.dw n } := by
  rw [Engine.raise_eq_recordFault, hinfo, Spec.recordFault, hrun]
  rfl

end

/-! ## The two commands (43_cipher.md R161, R162, R166) -/

section
variable {W : Width}

/-- ENC and DEC share their preconditions and their frame. -/
theorem exists_exec_eq_cipher {i : Instr} (hi : i = .enc ∨ i = .dec) (e : Engine W) (p : List (HostOp W))
    (o : List (Bus W)) : ∃ f, exec i ⟨W, e, p, o⟩ = .next ⟨W, e.cipher (encode i) f, p, o⟩ := by
  obtain rfl | rfl := hi
  · exact ⟨_, rfl⟩
  · exact ⟨_, rfl⟩

section
variable {e : Engine W} (h : Spec.cipherReady e) {K : Nat → Word W}
  (hK : ∀ k < 2 * e.rounds.toNat, Memory.read e.sub k = some (K k)) (p : List (HostOp W)) (o : List (Bus W))
include h hK

theorem exec_enc_of_cipherReady : exec .enc ⟨W, e, p, o⟩ =
    .next ⟨W, e.withBlock (encBlock K e.rounds.toNat (e.x0, e.x1)), p, o⟩ := by
  rw [← Engine.cipher_of_cipherReady (encode .enc) (fun _ h S x => encrypt h S x) h hK
    fun _ hpos hS => encrypt_eq_encBlock hS hpos _]
  rfl

theorem exec_dec_of_cipherReady : exec .dec ⟨W, e, p, o⟩ =
    .next ⟨W, e.withBlock (decBlock K e.rounds.toNat (e.x0, e.x1)), p, o⟩ := by
  rw [← Engine.cipher_of_cipherReady (encode .dec) (fun _ h S x => decrypt h S x) h hK
    fun _ hpos hS => decrypt_eq_decBlock hS hpos _]
  rfl

end

/-- A schedule of the right length with every word known meets the preconditions. -/
theorem cipherReady_of_read_eq_some {e : Engine W} (hr : e.rounds.toNat ≠ 0)
    (hslen : e.slen.toNat = 2 * e.rounds.toNat + 1) {S : Nat → Word W}
    (hS : ∀ k < 2 * e.rounds.toNat + 1, Memory.read e.sub k = some (S k)) : Spec.cipherReady e :=
  ⟨hr, hslen, fun k hk => by rw [hS k hk]; exact Option.some_ne_none _⟩

end

/-! ## The obligations -/

/-- Settles O30: each line of a round undoes the corresponding line of the other. -/
theorem roundsAreInverse : Obligations.RoundsAreInverse := by
  unfold Obligations.RoundsAreInverse
  exact fun W s s' a b => ⟨decRound_encRound s s' (a, b), encRound_decRound s s' (a, b)⟩

/-- Settles O27: the shared shape of ENC and DEC, one precondition at a time. -/
theorem cipherPreconditionsInOrder : Obligations.CipherPreconditionsInOrder := by
  unfold Obligations.CipherPreconditionsInOrder
  intro W e p o i cw hi hrun
  have hcw : (encode i).toNat = cw := by
    obtain ⟨rfl, rfl⟩ | ⟨rfl, rfl⟩ := hi <;> rfl
  obtain ⟨f, hexec⟩ := exists_exec_eq_cipher (hi.imp And.left And.left) e p o
  rw [hexec]
  refine ⟨fun hr => ?rounds, fun hr hslen => ?slen, fun hr hslen k hk habsent hlowest => ?absent,
    fun hready => ?ready⟩
  case rounds =>
    rw [Engine.cipher_of_rounds_eq_zero _ f hr, Engine.raise_eq_of_toNat_eq hrun _ hcw]
    rfl
  case slen =>
    rw [Engine.cipher_of_slen_ne _ f hr hslen,
      Engine.raise_eq_of_toNat_eq hrun _ (BitVec.toNat_setWidth_of_le (by decide))]
    rfl
  case absent =>
    have hgather := (Memory.gather_eq_error_iff e.sub (subkeyCount e.rounds.toNat) k).2
      ⟨hk.trans_eq hslen, habsent, hlowest⟩
    have hinfo : (BitVec.ofNat 32 (0x200 + k)).toNat = 0x200 + k := by
      have hlt : k < 2 ^ 9 := hk.trans e.slen.isLt
      rw [BitVec.toNat_ofNat, Nat.mod_eq_of_lt (by omega)]
    rw [Engine.cipher_of_gather_eq_error _ f hr hslen hgather, Engine.raise_eq_of_toNat_eq hrun _ hinfo]
    rfl
  case ready =>
    obtain ⟨hr, hslen, hpresent⟩ := hready
    obtain ⟨S, hgather⟩ := Memory.exists_gather_of_read_ne_none (n := subkeyCount _) hpresent
    rw [Engine.cipher_of_gather_eq_ok _ f hr hslen hgather]
    exact ⟨_, _, rfl⟩

/-- Settles O28: the walk up the rounds is the sequence of registers. -/
theorem encFollowsItsPseudocode : Obligations.EncFollowsItsPseudocode := by
  unfold Obligations.EncFollowsItsPseudocode
  refine ⟨decode_encode (i := .enc) rfl, fun W e p o S _ hr hslen hS => ?_⟩
  have hexec := exec_enc_of_cipherReady (cipherReady_of_read_eq_some hr hslen hS)
    (fun k hk => hS k (Nat.lt_succ_of_lt hk)) p o
  let x : Block W.bits := (wordAdd e.x0 (S 0), wordAdd e.x1 (S 1))
  refine ⟨fun i => (encWalk S i x).1, fun i => (encWalk S i x).2, rfl, rfl, fun i hi _ => ?_, hexec⟩
  obtain ⟨n, rfl⟩ := Nat.exists_eq_add_of_le' hi
  exact ⟨rfl, rfl⟩

/-- Settles O29: the registers DEC passes are those a walk up the rounds passes from the block DEC ends in
(R163: the same indices in reverse), as each round undoes the other. -/
theorem decFollowsItsPseudocode : Obligations.DecFollowsItsPseudocode := by
  unfold Obligations.DecFollowsItsPseudocode
  refine ⟨decode_encode (i := .dec) rfl, fun W e p o S _ hr hslen hS => ?_⟩
  have hexec := exec_dec_of_cipherReady (cipherReady_of_read_eq_some hr hslen hS)
    (fun k hk => hS k (Nat.lt_succ_of_lt hk)) p o
  let z := decWalk S (e.rounds.toNat - 1) (e.x0, e.x1)
  have hz : encWalk S (e.rounds.toNat - 1) z = (e.x0, e.x1) := encWalk_decWalk _ _ _
  refine ⟨fun i => (encWalk S i z).1, fun i => (encWalk S i z).2, congrArg Prod.fst hz,
    congrArg Prod.snd hz, fun i hi _ => ?_, hexec⟩
  obtain ⟨n, rfl⟩ := Nat.exists_eq_add_of_le' hi
  simp only [Nat.add_sub_cancel, encWalk_eq_decRound S n z]
  exact ⟨rfl, rfl⟩

/-- Settles O31: with one schedule the two transforms of the block are inverse, and the rest stays. -/
theorem decryptUndoesEncrypt : Obligations.DecryptUndoesEncrypt := by
  unfold Obligations.DecryptUndoesEncrypt
  intro W e p o _ hready
  obtain ⟨K, hK⟩ := exists_subkeys_of_cipherReady hready
  refine ⟨⟨_, exec_enc_of_cipherReady hready hK p o, ?encDec⟩,
    ⟨_, exec_dec_of_cipherReady hready hK p o, ?decEnc⟩⟩
  case encDec =>
    have hdec := exec_dec_of_cipherReady
      (e := e.withBlock (encBlock K e.rounds.toNat (e.x0, e.x1))) hready hK p o
    simpa [decBlock_encBlock] using hdec
  case decEnc =>
    have henc := exec_enc_of_cipherReady
      (e := e.withBlock (decBlock K e.rounds.toNat (e.x0, e.x1))) hready hK p o
    simpa [encBlock_decBlock] using henc

/-- Settles O32: both blocks are transformed with the entries below `2r` that the engines share. -/
theorem cipherChangesOnlyTheBlock : Obligations.CipherChangesOnlyTheBlock := by
  unfold Obligations.CipherChangesOnlyTheBlock
  intro W e f p p' o o' i hi _ _ he hf hx0 hx1 hrounds hsub
  obtain ⟨K, hK⟩ := exists_subkeys_of_cipherReady he
  have hK' : ∀ k < 2 * f.rounds.toNat, Memory.read f.sub k = some (K k) := by
    rw [← hrounds]
    exact fun k hk => (hsub k hk).symm.trans (hK k hk)
  obtain rfl | rfl := hi
  · refine ⟨_, _, exec_enc_of_cipherReady he hK p o, ?_⟩
    rw [hx0, hx1, hrounds]
    exact exec_enc_of_cipherReady hf hK' p' o'
  · refine ⟨_, _, exec_dec_of_cipherReady he hK p o, ?_⟩
    rw [hx0, hx1, hrounds]
    exact exec_dec_of_cipherReady hf hK' p' o'

end Sys2Proof.Machine
end

section
/-! SUPPORT. The proofs of the exceptions family (60_exceptions.md). A step is one of the effects of
`HostEffect`: an effect that ends with a fault recorded is fault entry itself, no effect but reset changes a
halted engine, and none but reset empties an entry of `K` or `S`. -/

namespace Sys2Proof.Machine

section
variable {W : Width} {e e' : Engine W}

/-! ## Fault entry is the only way to record a fault (60_exceptions.md R190, R193) -/

@[simp] theorem Engine.store_fault (e : Engine W) (r : HostReg) (v : Bus W) :
    (e.store r v).fault = e.fault := by
  cases r with
  | x i => exact e.setX_fault i _
  | _ => rfl

/-- A command that records a fault has taken it and done nothing else. -/
theorem CommandEffect.eq_raise_of_fault (h : CommandEffect e e') (hrun : e.fault = false)
    (hfault : e'.fault = true) : ∃ c info, e' = e.raise c info := by
  cases h with
  | raised c info => exact ⟨c, info, rfl⟩
  | register rd v => simp [hrun] at hfault
  | schedule _ _ => simp [hrun] at hfault
  | block _ _ => simp [hrun] at hfault

/-- A host operation that records a fault has taken it and done nothing else. -/
theorem HostEffect.eq_raise_of_fault {op : HostOp W} (h : HostEffect e op e') (hrun : e.fault = false)
    (hfault : e'.fault = true) : ∃ c info, e' = e.raise c info := by
  cases h with
  | raised _ _ c info => exact ⟨c, info, rfl⟩
  | command _ _ _ _ hcommand => exact hcommand.eq_raise_of_fault hrun hfault
  | unchanged _ _ => simp [hrun] at hfault
  | stored _ v r => simp [hrun] at hfault
  | reset => simp at hfault

/-! ## The halted engine (60_exceptions.md R191) -/

/-- While a fault is recorded no host operation but reset changes anything. -/
theorem HostEffect.eq_of_halted {op : HostOp W} (h : HostEffect e op e') (hop : op ≠ .reset)
    (hhalt : e.fault = true) : e' = e := by
  cases h with
  | unchanged _ _ => rfl
  | raised _ _ c info => exact Engine.raise_of_halted hhalt c info
  | stored _ _ _ hrun => simp [hhalt] at hrun
  | command _ _ _ hrun => simp [hhalt] at hrun
  | reset => exact absurd rfl hop

/-- The fault bit is seen in STATUS alone. -/
theorem Engine.regValue_withFault (e : Engine W) {r : HostReg} (h : r ≠ .status) (b : Bool) :
    { e with fault := b }.regValue r = e.regValue r := by
  cases r with
  | status => exact absurd rfl h
  | _ => rfl

theorem Engine.portValue_withFault (e : Engine W) {a : BitVec 10} (h : a ≠ HostReg.status.addr) (b : Bool) :
    { e with fault := b }.portValue a = e.portValue a := by
  cases ha : HostReg.ofAddr a with
  | none => simp only [Engine.portValue_of_ofAddr_eq_none _ ha]
  | some r =>
    have hr : r ≠ .status := by
      rintro rfl
      exact h (HostReg.addr_of_ofAddr ha).symm
    simp only [Engine.portValue_of_ofAddr_eq_some _ ha, e.regValue_withFault hr]

/-- While a fault is recorded a read that would fault records nothing and returns 0. -/
theorem step_read_of_fault_of_halted (hhalt : e.fault = true) {a : BitVec 10} {c : Cause}
    (h : e.portValue a = .error c) (p : List (HostOp W)) (o : List (Bus W)) :
    step ⟨W, e, .read a :: p, o⟩ = .next ⟨W, e, p, o ++ [0]⟩ := by
  rw [step_read_of_fault h, Spec.recordFault, if_pos hhalt]

/-! ## Entries of `K` and `S` stay present (10_state.md R36) -/

/-- Every entry that holds a value in `m` holds one in `m'`, the same or another. -/
def Memory.StaysPresent {α : Type} (m m' : Memory α) : Prop :=
  ∀ k, Memory.read m k ≠ none → Memory.read m' k ≠ none

theorem Memory.StaysPresent.refl {α : Type} (m : Memory α) : Memory.StaysPresent m m := fun _ h => h

theorem Memory.staysPresent_write {α : Type} (m : Memory α) (k : Nat) (v : α) :
    Memory.StaysPresent m (Memory.write m k v) := by
  intro j h
  rw [Memory.read_write]
  split
  · exact Option.some_ne_none v
  · exact h

theorem Memory.staysPresent_writeFrom {α : Type} (m : Memory α) (k : Nat) (vs : List α) :
    Memory.StaysPresent m (Memory.writeFrom m k vs) := by
  induction vs generalizing m k with
  | nil => exact .refl m
  | cons v vs ih => exact fun j h => ih _ _ j (Memory.staysPresent_write m k v j h)

theorem Engine.store_staysPresent (e : Engine W) (r : HostReg) (v : Bus W) :
    Memory.StaysPresent e.key (e.store r v).key ∧ Memory.StaysPresent e.sub (e.store r v).sub := by
  cases r with
  | x i =>
    rw [Engine.store_x, Engine.setX_key, Engine.setX_sub]
    exact ⟨.refl _, .refl _⟩
  | key k => exact ⟨Memory.staysPresent_write _ _ _, .refl _⟩
  | subkey k => exact ⟨.refl _, Memory.staysPresent_write _ _ _⟩
  | _ => exact ⟨.refl _, .refl _⟩

theorem CommandEffect.sub_staysPresent (h : CommandEffect e e') : Memory.StaysPresent e.sub e'.sub := by
  cases h with
  | register rd v => rw [Engine.setX_sub]; exact .refl _
  | raised c info => rw [Engine.raise_sub]; exact .refl _
  | schedule _ _ => exact Memory.staysPresent_writeFrom _ _ _
  | block _ _ => exact .refl _

/-- No host operation but reset empties an entry. -/
theorem HostEffect.staysPresent {op : HostOp W} (h : HostEffect e op e') (hop : op ≠ .reset) :
    Memory.StaysPresent e.key e'.key ∧ Memory.StaysPresent e.sub e'.sub := by
  cases h with
  | unchanged _ _ => exact ⟨.refl _, .refl _⟩
  | raised _ _ c info =>
    rw [Engine.raise_key, Engine.raise_sub]
    exact ⟨.refl _, .refl _⟩
  | stored _ v r => exact e.store_staysPresent r v
  | command _ _ _ _ hcommand =>
    obtain ⟨hkey, -, -⟩ := hcommand.keeps_key_and_rounds
    rw [hkey]
    exact ⟨.refl _, hcommand.sub_staysPresent⟩
  | reset => exact absurd rfl hop

end

/-! ## The obligations -/

/-- Settles O43: the step that records a fault is fault entry. -/
theorem faultsArePrecise : Obligations.FaultsArePrecise := by
  unfold Obligations.FaultsArePrecise
  intro W e e' pending p' o o' hstep hrun hfault
  cases pending with
  | nil =>
    rw [step_idle] at hstep
    cases hstep
    simp [hrun] at hfault
  | cons op p =>
    obtain ⟨e₁, o₁, hop, heffect⟩ := step_effect e op p o
    rw [hop] at hstep
    cases hstep
    obtain ⟨c, info, rfl⟩ := heffect.eq_raise_of_fault hrun hfault
    rw [Engine.raise_of_running hrun]

/-- Settles O44: away from STATUS the fault bit decides only whether a faulting read is recorded, so the two
reads find the same value or the same fault. -/
theorem haltedEngineChangesNothing : Obligations.HaltedEngineChangesNothing := by
  unfold Obligations.HaltedEngineChangesNothing
  refine fun W e p o hhalt =>
    ⟨fun a v => step_write_of_halted hhalt a v p o, step_read_reg .status rfl p o, fun a ha => ?_⟩
  have hsame : { e with fault := false }.portValue a = e.portValue a := e.portValue_withFault ha false
  cases hport : e.portValue a with
  | ok v =>
    exact ⟨v, _, step_read_of_value hport p o, step_read_of_value (hsame.trans hport) p o, nofun⟩
  | error c =>
    exact ⟨0, _, step_read_of_fault_of_halted hhalt hport p o,
      step_read_of_fault (hsame.trans hport) p o, fun _ => rfl⟩

/-- Settles O45, by the effect of the operation; reset by its own equation. -/
theorem onlyResetClearsFaultsAndEntries : Obligations.OnlyResetClearsFaultsAndEntries := by
  unfold Obligations.OnlyResetClearsFaultsAndEntries
  refine fun W e p o => ⟨fun op e' o' hstep hop => ?others, ?reset⟩
  case others =>
    obtain ⟨e₁, o₁, heq, heffect⟩ := step_effect e op p o
    rw [heq] at hstep
    cases hstep
    refine ⟨fun hhalt => ?_, heffect.staysPresent hop⟩
    rw [heffect.eq_of_halted hop hhalt]
    exact ⟨hhalt, rfl, rfl⟩
  case reset => exact ⟨_, step_reset e p o, rfl, fun _ => ⟨rfl, rfl⟩⟩

/-- Settles O42: the equation of fault entry, and the code of each cause. -/
theorem faultEntryRecordsTheFault : Obligations.FaultEntryRecordsTheFault := by
  unfold Obligations.FaultEntryRecordsTheFault
  exact ⟨fun W e c info hrun => Engine.raise_eq_of_toNat_eq hrun c rfl, rfl, rfl, rfl, rfl, rfl, rfl, rfl⟩

end Sys2Proof.Machine
end

section
/-! SUPPORT. The proofs of the reset and hazards family (70_reset_and_hazards.md). KEYEXP leaves a schedule
that meets the preconditions of ENC and DEC, and reset leaves the engine of R41. -/

namespace Sys2Proof.Machine

section
variable {W : Width}

/-- The schedule KEYEXP installs for a ROUNDS of at least 1 meets the preconditions of the cipher (R203). -/
theorem Engine.cipherReady_withSchedule {e : Engine W} (hr : e.rounds.toNat ≠ 0)
    (S : Vector (Word W) (subkeyCount e.rounds.toNat)) : Spec.cipherReady (e.withSchedule S) :=
  cipherReady_of_read_eq_some hr (e.withSchedule_slen S rfl) fun _ hk => e.read_withSchedule_of_lt S hk

/-- With their preconditions met ENC and DEC complete and change nothing but the block (R161, R173). -/
theorem exists_exec_eq_withBlock_of_cipherReady {i : Instr} (hi : i = .enc ∨ i = .dec) {e : Engine W}
    (h : Spec.cipherReady e) (p : List (HostOp W)) (o : List (Bus W)) :
    ∃ ab, exec i ⟨W, e, p, o⟩ = .next ⟨W, e.withBlock ab, p, o⟩ := by
  obtain ⟨K, hK⟩ := exists_subkeys_of_cipherReady h
  obtain rfl | rfl := hi
  · exact ⟨_, exec_enc_of_cipherReady h hK p o⟩
  · exact ⟨_, exec_dec_of_cipherReady h hK p o⟩

@[simp] theorem Engine.reset_getX (pw qw : Word W) (r : Reg) : (Engine.reset pw qw).getX r = 0 := by
  cases r <;> rfl

end

/-! ## The obligations -/

/-- Settles O33: KEYEXP installs a schedule that is ready for the cipher. -/
theorem cipherRunsAfterKeyexp : Obligations.CipherRunsAfterKeyexp := by
  unfold Obligations.CipherRunsAfterKeyexp
  intro W e p o i hi _ hkey hr
  obtain ⟨S, hkeyexp⟩ := exec_keyexp_of_keyReady hkey p o
  obtain ⟨ab, hcipher⟩ :=
    exists_exec_eq_withBlock_of_cipherReady hi (Engine.cipherReady_withSchedule hr S) p o
  exact ⟨_, hkeyexp, ab.1, ab.2, hcipher⟩

/-- Settles O46: the step of a reset leaves the engine right after reset, read field by field. -/
theorem resetClearsEverything : Obligations.ResetClearsEverything := by
  unfold Obligations.ResetClearsEverything
  exact fun W e p o => ⟨_, step_reset e p o, Engine.reset_getX e.pw e.qw, rfl, rfl, rfl,
    Engine.reset_fault _ _, Engine.reset_cause _ _, Engine.reset_finfo _ _, fun _ => rfl, fun _ => rfl,
    Engine.reset_pw _ _, Engine.reset_qw _ _, rfl⟩

end Sys2Proof.Machine
end

section
/-! SUPPORT. The proofs of the test vectors (95_test_vectors.md): concrete schedules and ciphertexts. The
schedule of V20 takes 63 iterations over buffers of 21 and 16 words; as only `S[0]` and `L[0]` are mixed
(42_key_schedule.md R152), it is evaluated in buffers of one word each. -/

namespace Sys2Proof.Machine

/-! ## The schedule by its first entries (42_key_schedule.md R152) -/

/-- The mixing state of the first entries alone: A, B, `S[0]` and `L[0]`. -/
def Mix.onFirst {w : Nat} (a b s l : BitVec w) : Mix w 1 1 := ⟨a, b, 0, 0, #v[s], #v[l]⟩

theorem Mix.run_add {w t c : Nat} (n n' : Nat) (m : Mix w t c) :
    Mix.run (n + n') m = Mix.run n' (Mix.run n m) := by
  induction n' with
  | zero => rfl
  | succ n' ih => rw [← Nat.add_assoc, Mix.run_succ, Mix.run_succ, ih]

theorem subkeyCount_pos (r : Nat) : 0 < subkeyCount r := Nat.succ_pos _

/-- The schedule is the fill with `S[0]` replaced by what the mixing of the first entries alone leaves. -/
theorem expandKey_eq_set_zero {W : Width} {pw qw x : Word W} {b r : Nat} {key : Vector Byte b}
    (hx : entry (Mix.run (mixCount W b r) (Mix.onFirst 0 0 pw (entry (packKey key) 0))).s 0 = x) :
    expandKey pw qw key r = (fillSchedule pw qw (subkeyCount r)).set 0 x (subkeyCount_pos r) := by
  have hfill : entry (fillSchedule pw qw (subkeyCount r)) 0 = pw :=
    (entry_of_lt _ (subkeyCount_pos r)).trans (fillSchedule_zero pw qw _)
  have hstart : (mixStart pw qw key r).SameFirst (Mix.onFirst 0 0 pw (entry (packKey key) 0)) :=
    ⟨rfl, rfl, hfill, rfl⟩
  apply eq_of_entry_eq
  intro k _
  cases k with
  | zero =>
    rw [entry_set_same, ← hx]
    exact (hstart.run rfl rfl rfl rfl _).s
  | succ k => rw [entry_set_of_ne _ _ k.succ_ne_zero, entry_expandKey_of_pos _ _ _ _ k.succ_pos]

/-! ## The schedule of V20 -/

/-- The state after an iteration with the trace entry (A, B): `S[0]` is A and `L[0]` is B (R147). -/
def Mix.traced {w : Nat} (a b : BitVec w) : Mix w 1 1 := Mix.onFirst a b a b

/-- The 63 iterations of V20 by way of the entries n = 14, 26, 38, 50 of its trace, each stretch short enough
to be evaluated; the first 15 iterations are those of V21. -/
theorem mixRun_of_v20 : Mix.run 63 (Mix.onFirst 0#8 0#8 0xB7#8 0#8) = Mix.traced 0x02#8 0x09#8 := by
  have h14 : Mix.run 15 (Mix.onFirst 0#8 0#8 0xB7#8 0#8) = Mix.traced 0x14#8 0x40#8 := by decide
  have h26 : Mix.run 12 (Mix.traced 0x14#8 0x40#8) = Mix.traced 0x96#8 0x2F#8 := by decide
  have h38 : Mix.run 12 (Mix.traced 0x96#8 0x2F#8) = Mix.traced 0x26#8 0x38#8 := by decide
  have h50 : Mix.run 12 (Mix.traced 0x26#8 0x38#8) = Mix.traced 0x22#8 0x0E#8 := by decide
  have h62 : Mix.run 12 (Mix.traced 0x22#8 0x0E#8) = Mix.traced 0x02#8 0x09#8 := by decide
  rw [Mix.run_add 51 12, Mix.run_add 39 12, Mix.run_add 27 12, Mix.run_add 15 12, h14, h26, h38, h50, h62]

/-- Every key byte of V20 is 0, and so is the packed word `L[0]`. -/
theorem expandKey_of_v20 : expandKey (W := .w8) 0xB7#8 0x9F#8 (Vector.replicate 16 0#8) 10 =
    (fillSchedule 0xB7#8 0x9F#8 (subkeyCount 10)).set 0 0x02#8 := by
  have hfirst : entry (Mix.run 63 (Mix.onFirst 0#8 0#8 0xB7#8 0#8)).s 0 = 0x02#8 := by
    rw [mixRun_of_v20]
    rfl
  exact expandKey_eq_set_zero hfirst

/-! ## The obligations -/

/-- Settles O26: V20 by its first entries, the schedules of few iterations by evaluation. -/
theorem scheduleVectorsOfFourWidths : Obligations.ScheduleVectorsOfFourWidths := by
  unfold Obligations.ScheduleVectorsOfFourWidths
  refine ⟨fun pw qw hpw hqw => ?v20, fun pw qw hpw hqw => ?v24, fun pw qw hpw hqw => ?v25,
    fun pw qw hpw hqw => ?v26⟩
  case v20 =>
    obtain rfl : pw = 0xB7#8 := BitVec.eq_of_toNat_eq hpw
    obtain rfl : qw = 0x9F#8 := BitVec.eq_of_toNat_eq hqw
    rw [expandKey_of_v20]
    decide
  case v24 =>
    obtain rfl : pw = 0xB7E15163#32 := BitVec.eq_of_toNat_eq hpw
    obtain rfl : qw = 0x9E3779B9#32 := BitVec.eq_of_toNat_eq hqw
    decide
  case v25 =>
    obtain rfl : pw = 0xB7E1#16 := BitVec.eq_of_toNat_eq hpw
    obtain rfl : qw = 0x9E37#16 := BitVec.eq_of_toNat_eq hqw
    decide
  case v26 =>
    obtain rfl : pw = 0xB7E151628AED2A6B#64 := BitVec.eq_of_toNat_eq hpw
    obtain rfl : qw = 0x9E3779B97F4A7C15#64 := BitVec.eq_of_toNat_eq hqw
    decide

/-- Settles O34: each vector by evaluation of its rounds. -/
theorem cipherVectors : Obligations.CipherVectors := by
  unfold Obligations.CipherVectors
  decide

end Sys2Proof.Machine
end
